-- ==== Sys2Proof/Word.lean ====
section
/-! DEFINITION. The word types of the Feistel cipher engine (spec/00_scope.md R10, R12, R13): unsigned values of a
stated width, bits numbered from 0 at the least significant bit. -/

namespace Sys2Proof

/-- One byte of a byte sequence (R41). -/
abbrev Byte := BitVec 8

/-- A Block, and the MasterKey, of 64 bits (R10: `BLOCK_BITS`, `KEY_BITS`). -/
abbrev Block := BitVec 64

/-- Left or Right, 32 bits (R10: `HALF_BITS`). -/
abbrev Half := BitVec 32

/-- One subkey, 48 bits (R10: `SUBKEY_BITS`). -/
abbrev Subkey := BitVec 48

/-- The sixteen subkeys of one schedule, by construction exactly 16 (R10: `ROUNDS`; R35 item 6). -/
abbrev Schedule := Vector Subkey 16

/-- A register number of the host port, 6 bits (R38). -/
abbrev Regno := BitVec 6

/-- One 16-bit word of the transaction notation (R56). -/
abbrev TWord := BitVec 16

end Sys2Proof
end

