-- ==== Sys2Proof/Config.lean ====
section
/-! DEFINITION. What an implementation fixes and the spec leaves open (spec/00_scope.md R11): the three lookup tables,
as a configuration record, and the latency. Well-formedness of the tables (R96) is carried by the entry types, so no
ill-formed configuration exists; `RawCfg` is the record as a reader writes it down, before that check. -/

namespace Sys2Proof

/-- A well-formed configuration (R96): 48 entries in 0..31, 32 entries in 0..31, 4 rows of 16 entries in 0..15. -/
structure Cfg where
  /-- `E_TABLE`, the expansion map. -/
  eTable : Vector (Fin 32) 48
  /-- `P_TABLE`, the permutation map. -/
  pTable : Vector (Fin 32) 32
  /-- `SBOX`, the substitution matrix, one row after the other. -/
  sbox : Vector (Vector (BitVec 4) 16) 4
deriving DecidableEq, Repr, Inhabited

/-- A table record as written down, not yet known to be well formed (R96). -/
structure RawCfg where
  /-- The entries of `E_TABLE`. -/
  eTable : List Nat
  /-- The entries of `P_TABLE`. -/
  pTable : List Nat
  /-- The rows of `SBOX`. -/
  sbox : List (List Nat)
deriving DecidableEq, Repr

/-- The tables of this engine (R11, R97: the spec gives no entry of them). OPAQUE: nothing in Lean can say what an
entry is, so whatever is proved holds for every well-formed configuration. Assumption log 1. -/
opaque Config.tables : Cfg

/-- By how much the latency of a request exceeds one clock cycle (R11: `T_LAT` at least 1; R157: an `ENC` may take 16
cycles and a read one). It may differ with how many requests were begun before it, the `STATUS` view at that edge,
`rw`, `regno` and the opcode of a command, and with no data (R150): no key, subkey, operand or result. OPAQUE: nothing
in Lean can say what it is. Read by the signal-level port alone. Assumption log 7. -/
opaque Config.extraLatency (begun : Nat) (status : BitVec 16) (rw : Bool) (regno : Regno) (opcode : Option Byte) : Nat

end Sys2Proof
end

