-- ==== Sys2Proof/Syntax.lean ====
section
/-! DEFINITION. The transactions a host can issue, one constructor per row of spec/opcode_table.json, in the order
of spec/30_encoding.md R61. The engine is no processor (R30): an "instruction" here is one transaction. -/

namespace Sys2Proof

/-- One row of the opcode map (R61) with its operand fields. The three `malformed…` constructors are the rows for
words that spell no transaction (R62 item 3). -/
inductive Instr where
  /-- `RESET` (R145): every register to its reset value. -/
  | reset
  /-- `KEYGEN` (R73): load the MasterKey from the operand buffer and generate the schedule. -/
  | keygen
  /-- `ENC` (R120): encrypt the block in the operand buffer. -/
  | enc
  /-- `DEC` (R121): decrypt the block in the operand buffer. -/
  | dec
  /-- `FLUSH` (R83): empty the operand buffer. -/
  | flush
  /-- `CLR` (R122): every register to its reset value, as a command. -/
  | clr
  /-- `WRCMD c` (R130): a write of any other opcode `c` to `CMD`. -/
  | wrcmd (c : Byte)
  /-- `PUSH b` (R81): offer one operand byte. -/
  | push (b : Byte)
  /-- `WRDIN v` (R82): offer a whole operand. -/
  | wrdin (v : Block)
  /-- A word 0x83xx with `xx` not zero: spells no transaction (R62). -/
  | malformed83 (x : Byte)
  /-- `RD STATUS` (R123). -/
  | rdStatus
  /-- `RD DOUT` (R124). -/
  | rdDout
  /-- `RD KEY` (R125). -/
  | rdKey
  /-- `RD OBYTEi` (R84), `i` in 0..7. -/
  | rdObyte (i : BitVec 3)
  /-- `RD SKi` (R74), `i` in 0..15. -/
  | rdSk (i : BitVec 4)
  /-- `RD n` (R131): a read of any other register number. -/
  | rdN (n : Regno)
  /-- A read word with `d8` not zero: spells no transaction (R62). -/
  | malformedRead (n : Regno) (d : Byte)
  /-- `WR n, b` (R131): a write to any other register number, `b` ignored. -/
  | wrN (n : Regno) (b : Byte)
  /-- A word with `z = 1` other than 0xC000: spells no transaction (R62). -/
  | malformedZ (rw : Bool) (n : Regno) (d : Byte)
deriving DecidableEq, Repr

end Sys2Proof
end

