-- ==== Sys2Proof/WellFormed.lean ====
section
/-! DEFINITION. Which terms of `Instr` are transactions as the opcode map spells them (spec/30_encoding.md R61: a
catch-all row sees only what no earlier row took), and which raw table records are configurations (R96). -/

namespace Sys2Proof

/-- The five command opcodes (R60). -/
def isCommandOpcode (c : Byte) : Bool :=
  c == 0x01#8 || c == 0x02#8 || c == 0x03#8 || c == 0x04#8 || c == 0x05#8

/-- The register numbers whose read is a bad access, as R131 lists them: `CMD`, `BYTE_IN`, `DIN`, 0x06, 0x07 and
0x20..0x3F. -/
def isBadRead (n : Regno) : Bool :=
  n == 0x00#6 || n == 0x02#6 || n == 0x03#6 || n == 0x06#6 || n == 0x07#6 || decide (0x20#6 ≤ n)

/-- The register numbers whose write is a bad access, as R131 lists them: `STATUS` and everything from 0x04 up. -/
def isBadWrite (n : Regno) : Bool :=
  n == 0x01#6 || decide (0x04#6 ≤ n)

/-- A term that the opcode map can spell: the catch-all rows and the malformed rows take only what is left to them. -/
def Instr.wellFormed : Instr → Bool
  | .reset => true
  | .keygen => true
  | .enc => true
  | .dec => true
  | .flush => true
  | .clr => true
  | .wrcmd c => !isCommandOpcode c
  | .push _ => true
  | .wrdin _ => true
  | .malformed83 x => x != 0x00#8
  | .rdStatus => true
  | .rdDout => true
  | .rdKey => true
  | .rdObyte _ => true
  | .rdSk _ => true
  | .rdN n => isBadRead n
  | .malformedRead _ d => d != 0x00#8
  | .wrN n _ => isBadWrite n
  | .malformedZ rw n d => !(rw && n == 0x00#6 && d == 0x00#8)

/-- A raw record that is a configuration of the engine (R96, R11). -/
def RawCfg.wellFormed (r : RawCfg) : Bool :=
  r.eTable.length == 48 && r.eTable.all (· < 32) &&
  r.pTable.length == 32 && r.pTable.all (· < 32) &&
  r.sbox.length == 4 && r.sbox.all (fun row => row.length == 16 && row.all (· < 16))

end Sys2Proof
end

