-- ==== Sys2Proof/Decode.lean ====
section
/-! DEFINITION. Reading and writing the transaction notation (spec/30_encoding.md sections 2, 4 and 5): the fields of
a 16-bit transaction word, the opcode map in its test order, the `WRDIN` payload, the encoder, and the reader of a
whole trace, which refuses malformed words by name. -/

namespace Sys2Proof

/-- Bit 15 of a transaction word: 1 is a write (R56). -/
def TWord.rw (w : TWord) : Bool := w.getLsbD 15

/-- Bit 14, 0 in every transaction but the reset marker (R56, R59). -/
def TWord.z (w : TWord) : Bool := w.getLsbD 14

/-- Bits 13:8, the register number (R58). -/
def TWord.regno (w : TWord) : Regno := w.extractLsb' 8 6

/-- Bits 7:0, the byte `d8`, used as it stands (R58). -/
def TWord.d8 (w : TWord) : Byte := w.extractLsb' 0 8

/-- Why a sequence of words is no transaction. -/
inductive DecodeError where
  /-- There is no word left. -/
  | endOfTrace
  /-- The words end inside a `WRDIN` payload (spec/93_implementation_defined.md U6). -/
  | truncatedPayload
  /-- 0x83xx with `xx` not zero (R62 item 3). -/
  | malformed83xx
  /-- A read word with `d8` not zero (R62 item 3). -/
  | malformedRead
  /-- `z = 1` in a word other than 0xC000 (R62 item 3). -/
  | malformedZ
deriving DecidableEq, Repr

/-- The row of the opcode map that a word of length one belongs to, tested in the order of R61. The word 0x8300 is
not among them: `decode` takes it together with its payload. The last row is what no earlier row took: `z = 1`. -/
def decodeWord (w : TWord) : Instr :=
  if w = 0xC000#16 then .reset
  else if w = 0x8001#16 then .keygen
  else if w = 0x8002#16 then .enc
  else if w = 0x8003#16 then .dec
  else if w = 0x8004#16 then .flush
  else if w = 0x8005#16 then .clr
  else if w &&& 0xFF00#16 = 0x8000#16 then .wrcmd (TWord.d8 w)
  else if w &&& 0xFF00#16 = 0x8200#16 then .push (TWord.d8 w)
  else if w &&& 0xFF00#16 = 0x8300#16 then .malformed83 (TWord.d8 w)
  else if w = 0x0100#16 then .rdStatus
  else if w = 0x0400#16 then .rdDout
  else if w = 0x0500#16 then .rdKey
  else if w &&& 0xF8FF#16 = 0x0800#16 then .rdObyte (w.extractLsb' 8 3)
  else if w &&& 0xF0FF#16 = 0x1000#16 then .rdSk (w.extractLsb' 8 4)
  else if w &&& 0xC0FF#16 = 0x0000#16 then .rdN (TWord.regno w)
  else if w &&& 0xC000#16 = 0x0000#16 then .malformedRead (TWord.regno w) (TWord.d8 w)
  else if w &&& 0xC000#16 = 0x8000#16 then .wrN (TWord.regno w) (TWord.d8 w)
  else .malformedZ (TWord.rw w) (TWord.regno w) (TWord.d8 w)

/-- The payload of `WRDIN` from its four words, most significant first (R56). -/
def payloadOf (v3 v2 v1 v0 : TWord) : Block := v3 ++ v2 ++ v1 ++ v0

/-- The four payload words of `WRDIN`, most significant first (R56). -/
def payloadWords (v : Block) : List TWord :=
  [v.extractLsb' 48 16, v.extractLsb' 32 16, v.extractLsb' 16 16, v.extractLsb' 0 16]

/-- Reads one transaction and gives the words after it (R57): a word equal to 0x8300 takes 64 more bits, the payload
`v`, most significant bit first; every other word stands alone. Total on any list of words. -/
def decode : List TWord → Except DecodeError (Instr × List TWord)
  | [] => .error .endOfTrace
  | w :: rest =>
    if w = 0x8300#16 then
      match rest with
      | v3 :: v2 :: v1 :: v0 :: rest' => .ok (.wrdin (payloadOf v3 v2 v1 v0), rest')
      | _ => .error .truncatedPayload
    else .ok (decodeWord w, rest)

/-- The words of a transaction, from the formats of R56 and the fields of R61. -/
def encode : Instr → List TWord
  | .reset => [0xC000#16]
  | .keygen => [0x8001#16]
  | .enc => [0x8002#16]
  | .dec => [0x8003#16]
  | .flush => [0x8004#16]
  | .clr => [0x8005#16]
  | .wrcmd c => [0x80#8 ++ c]
  | .push b => [0x82#8 ++ b]
  | .wrdin v => 0x8300#16 :: payloadWords v
  | .malformed83 x => [0x83#8 ++ x]
  | .rdStatus => [0x0100#16]
  | .rdDout => [0x0400#16]
  | .rdKey => [0x0500#16]
  | .rdObyte i => [0b00001#5 ++ i ++ 0x00#8]
  | .rdSk i => [0b0001#4 ++ i ++ 0x00#8]
  | .rdN n => [0b00#2 ++ n ++ 0x00#8]
  | .malformedRead n d => [0b00#2 ++ n ++ d]
  | .wrN n b => [0b10#2 ++ n ++ b]
  | .malformedZ rw n d => [BitVec.ofBool rw ++ 1#1 ++ n ++ d]

/-- The name under which a row that spells no transaction is refused (R62 item 3). -/
def Instr.malformedName : Instr → Option DecodeError
  | .malformed83 _ => some .malformed83xx
  | .malformedRead _ _ => some .malformedRead
  | .malformedZ _ _ _ => some .malformedZ
  | .reset => none
  | .keygen => none
  | .enc => none
  | .dec => none
  | .flush => none
  | .clr => none
  | .wrcmd _ => none
  | .push _ => none
  | .wrdin _ => none
  | .rdStatus => none
  | .rdDout => none
  | .rdKey => none
  | .rdObyte _ => none
  | .rdSk _ => none
  | .rdN _ => none
  | .wrN _ _ => none

/-- Reads one word list as transactions with `fuel` at least the number of words. -/
def decodeTraceFuel : Nat → List TWord → Except DecodeError (List Instr)
  | _, [] => .ok []
  | 0, _ :: _ => .error .endOfTrace
  | fuel + 1, w :: ws =>
    match decode (w :: ws) with
    | .error e => .error e
    | .ok (i, rest) =>
      match i.malformedName with
      | some e => .error e
      | none =>
        match decodeTraceFuel fuel rest with
        | .error e => .error e
        | .ok is => .ok (i :: is)

/-- The trace decoder: the transactions a trace spells, refusing by name a malformed word and a trace that ends
inside a payload (R62 item 3, U6). -/
def decodeTrace (ws : List TWord) : Except DecodeError (List Instr) := decodeTraceFuel ws.length ws

/-- The words of a whole trace. -/
def encodeTrace (is : List Instr) : List TWord := is.flatMap encode

/-- The words that the number `w` of an opcode-table row stands for: bit 0 of `w` is bit 0 of the first word and
each later word counts on from it, bits from `nbits` up are 0, and the words are as many as the first word takes
(R57). -/
def tableWords (nbits w : Nat) : List TWord :=
  let v := w % 2 ^ nbits
  let word (k : Nat) : TWord := BitVec.ofNat 16 (v / 2 ^ (16 * k))
  if word 0 = 0x8300#16 then [word 0, word 1, word 2, word 3, word 4] else [word 0]

/-- The transaction read from the number of an opcode-table row. -/
def decodeTableWord (nbits w : Nat) : Option Instr :=
  match decode (tableWords nbits w) with
  | .ok (i, _) => some i
  | .error _ => none

end Sys2Proof
end

