-- ==== Sys2Proof/Machine/RoundFunction.lean ====
section
/-! DEFINITION. The Round Function F (spec/42_round_function.md R85 to R93): Expand, Mix, Substitute, Permute, each
pure and total for every configuration (R94). -/

namespace Sys2Proof.Machine

/-- `Expand` (R87): output bit `j` is the input bit that `E_TABLE[j]` names. -/
def expand (c : Cfg) (h : Half) : BitVec 48 := BitVec.ofFnLE fun j : Fin 48 => h.getLsbD c.eTable[j]

/-- `Mix` (R88): exclusive or with the round's subkey. -/
def mix (x : BitVec 48) (k : Subkey) : BitVec 48 := x ^^^ k

/-- Group `g` of the mixed value (R89): bits `47-6g` down to `42-6g`; group 0 is the most significant. -/
def group (m : BitVec 48) (g : Nat) : BitVec 6 := m.extractLsb' (42 - 6 * g) 6

/-- The row of a group (R89): its two outer bits, `G[5]` the more significant; two bits are in 0..3 (R90). -/
def groupRow (x : BitVec 6) : BitVec 2 := x.extractLsb' 5 1 ++ x.extractLsb' 0 1

/-- The column of a group (R89): its four inner bits `G[4:1]`; four bits are in 0..15 (R90). -/
def groupCol (x : BitVec 6) : BitVec 4 := x.extractLsb' 1 4

/-- The nibble of a group: `SBOX[row][col]`, in the one matrix that all groups use (R89, R91). -/
def nibble (c : Cfg) (x : BitVec 6) : BitVec 4 :=
  (c.sbox[(groupRow x).toNat]'(groupRow x).isLt)[(groupCol x).toNat]'(groupCol x).isLt

/-- `Substitute` (R89): the eight nibbles, that of group 0 most significant. -/
def substitute (c : Cfg) (m : BitVec 48) : Half :=
  nibble c (group m 0) ++ nibble c (group m 1) ++ nibble c (group m 2) ++ nibble c (group m 3) ++
    nibble c (group m 4) ++ nibble c (group m 5) ++ nibble c (group m 6) ++ nibble c (group m 7)

/-- `Permute` (R92): output bit `j` is the input bit that `P_TABLE[j]` names. -/
def permute (c : Cfg) (s : Half) : Half := BitVec.ofFnLE fun j : Fin 32 => s.getLsbD c.pTable[j]

/-- `F(h, k)` (R93): the four steps in their order. -/
def roundF (c : Cfg) (h : Half) (k : Subkey) : Half := permute c (substitute c (mix (expand c h) k))

end Sys2Proof.Machine
end

