-- ==== Sys2Proof/Machine/Feistel.lean ====
section
/-! DEFINITION. The Feistel Engine (spec/43_feistel_engine.md R100 to R104): sixteen equal rounds, no exchange after
the last. -/

namespace Sys2Proof.Machine

/-- One round (R100): the new left is the old right, the new right is `L xor F(R, k)`. -/
def feistelRound (c : Cfg) (lr : Half × Half) (k : Subkey) : Half × Half := (lr.2, lr.1 ^^^ roundF c lr.2 k)

/-- The subkeys in the order the rounds use them (R101): `sk[0]` to `sk[15]` forward, `sk[15]` to `sk[0]` in the
reverse direction. -/
def subkeyOrder (sk : Schedule) (forward : Bool) : List Subkey :=
  if forward then sk.toList else sk.toList.reverse

/-- `RunRounds` (R101): the rounds in order, the pair returned as the loop left it, not exchanged (R102). -/
def runRounds (c : Cfg) (l r : Half) (sk : Schedule) (forward : Bool) : Half × Half :=
  (subkeyOrder sk forward).foldl (feistelRound c) (l, r)

end Sys2Proof.Machine
end

