-- ==== Sys2Proof/Machine/KeySchedule.lean ====
section
/-! DEFINITION. The Key Schedule Generator's functions (spec/40_key_schedule.md R66, R69). -/

namespace Sys2Proof.Machine

/-- `Subkey(k, i)` (R66): the key shifted right by `i` with zeros entering, masked to its low 48 bits. -/
def subkey (k : Block) (i : Nat) : Subkey := (k >>> i).setWidth 48

/-- `Schedule(k)` (R69): the subkeys 0 to 15, always sixteen of them (R68). -/
def schedule (k : Block) : Schedule := Vector.ofFn fun i => subkey k i

end Sys2Proof.Machine
end

