-- ==== Sys2Proof/Machine/Facade.lean ====
section
/-! DEFINITION. The Block Cipher Facade's functions (spec/44_facade_commands.md R107 to R111). -/

namespace Sys2Proof.Machine

/-- `IP` (R107): the identity. -/
def initialPermutation (b : Block) : Block := b

/-- `FP` (R107): the identity. -/
def finalPermutation (b : Block) : Block := b

/-- `Split` (R108): Left is bits 63..32, Right bits 31..0. -/
def split (b : Block) : Half × Half := (b.extractLsb' 32 32, b.extractLsb' 0 32)

/-- `Join` (R109): the final right half becomes the more significant one. -/
def join (lr : Half × Half) : Block := lr.2 ++ lr.1

/-- The whole pass over one block in one direction (R110, R111). -/
def cipherPass (c : Cfg) (forward : Bool) (b : Block) (sk : Schedule) : Block :=
  finalPermutation (join (runRounds c (split (initialPermutation b)).1 (split (initialPermutation b)).2 sk forward))

/-- `EncodeSK(b, sk)` (R110). -/
def encodeSK (c : Cfg) (b : Block) (sk : Schedule) : Block := cipherPass c true b sk

/-- `DecodeSK(b, sk)` (R111): only the order of the subkeys differs. -/
def decodeSK (c : Cfg) (b : Block) (sk : Schedule) : Block := cipherPass c false b sk

/-- `Encode(b, k)` (R110). -/
def encodeBlock (c : Cfg) (b k : Block) : Block := encodeSK c b (schedule k)

/-- `Decode(b, k)` (R111). -/
def decodeBlock (c : Cfg) (b k : Block) : Block := decodeSK c b (schedule k)

end Sys2Proof.Machine
end

