-- ==== Sys2Proof/Machine/State.lean ====
section
/-! DEFINITION. The state of one Feistel cipher engine (spec/10_state.md R16), the errors and answers of its
transactions (R54, R55, R126), why a step may stop, and the reset state (R36). -/

namespace Sys2Proof.Machine

/-- The five errors of R126. Each ends one transaction and is answered in it; none of them stops the machine. -/
inductive EngineError where
  /-- Code 1: the operand is not exactly 8 bytes (R127). -/
  | lengthError
  /-- Code 2: no key loaded (R128). -/
  | noKeyError
  /-- Code 3: a key is already loaded (R129). -/
  | keyLockedError
  /-- Code 4: unknown command opcode (R130). -/
  | illegalCommand
  /-- Code 5: direction and register number not in the register map (R131). -/
  | badAccess
deriving DecidableEq, Repr

/-- The value of a legal read, of exactly the width of the register read (R44, R39). -/
inductive Value where
  /-- 8 bits: `OBYTEi`. -/
  | byte (v : BitVec 8)
  /-- 16 bits: `STATUS`. -/
  | status (v : BitVec 16)
  /-- 48 bits: `SKi`. -/
  | subkey (v : BitVec 48)
  /-- 64 bits: `DOUT`, `KEY`. -/
  | block (v : BitVec 64)
deriving DecidableEq, Repr

/-- The answer of one transaction to the host (R54, R55). `Reset()` answers nothing. -/
inductive Answer where
  /-- A write answered `OK`. -/
  | ok
  /-- A read answered `OK` with this value. -/
  | value (v : Value)
  /-- A write answered `ERROR(code)`. -/
  | error (e : EngineError)
  /-- A read answered `ERROR(code)`, with the value 0 (R55). -/
  | readError (e : EngineError)
deriving DecidableEq, Repr

/-- The state. The first nine fields are the registers of R16, all the architectural state there is. The last two
are the model's own record of the host's side (assumption log 2, 3): the transactions it has still to issue and the
answers it has had. -/
@[ext]
structure State where
  /-- `KEY`, the MasterKey (R18). -/
  key : BitVec 64
  /-- `KV`, key valid (R19). -/
  kv : Bool
  /-- `SK[0..15]`, the SubkeySchedule (R20). -/
  sk : Vector (BitVec 48) 16
  /-- `IBUF[0..7]`, the operand buffer (R21). -/
  ibuf : Vector (BitVec 8) 8
  /-- `ILEN`, the bytes offered since the buffer was last emptied, saturating at 15 (R22). -/
  ilen : BitVec 4
  /-- `DOUT`, the result Block (R23). -/
  dout : BitVec 64
  /-- `OV`, output valid (R24). -/
  ov : Bool
  /-- `ERR`, the error code (R25). -/
  err : BitVec 3
  /-- `EFLAG`, the sticky error flag (R26). -/
  eflag : Bool
  /-- MODEL: the host's transactions not yet issued, as transaction words, next one first (R149). -/
  trace : List (BitVec 16)
  /-- MODEL: the answers given so far, oldest first (R149). -/
  answers : List Answer
deriving DecidableEq, Repr

/-- Why the machine may stop with a fault: it never does. "Every transaction terminates with an answer, in every
state and for every input" and there is "no stuck state" (R150), so the type has no constructor, and that no step
faults holds by type. The engine's errors are next states (R134). -/
inductive Fault where
deriving DecidableEq, Repr

/-- Why a step gives no next state: the words are no transaction, or the access has a width the port does not
have. -/
inductive Refusal where
  /-- An arm of `exec` without a meaning raises it, naming its row; no arm does (safe). -/
  | notModelled (mnemonic : String)
  /-- Raised by `exec` for the row 0x83xx with `xx` not zero, which spells no transaction (R62 item 3). Safe. -/
  | malformed83xx
  /-- Raised by `exec` for a read word with `d8` not zero, which spells no transaction (R62 item 3). Safe. -/
  | malformedRead
  /-- Raised by `exec` for a word with `z = 1` other than 0xC000, which spells no transaction (R62 item 3). Safe. -/
  | malformedZ
  /-- Raised by `step` when the trace ends inside a `WRDIN` payload (spec/93_implementation_defined.md U6). Safe. -/
  | truncatedPayload
  /-- Raised by a port write whose data has not exactly the register's width (R44, D5, U7). Safe. -/
  | partialWrite
deriving DecidableEq, Repr

/-- The state after reset: every register zero (R36, R145). The host has issued and been answered nothing. -/
def State.reset : State where
  key := 0#64
  kv := false
  sk := Vector.replicate 16 0#48
  ibuf := Vector.replicate 8 0#8
  ilen := 0#4
  dout := 0#64
  ov := false
  err := 0#3
  eflag := false
  trace := []
  answers := []

end Sys2Proof.Machine
end

