-- ==== Sys2Proof/Machine/BitBlock.lean ====
section
/-! DEFINITION. The Bit-Block Adapter's two functions (spec/41_bit_block_adapter.md R75, R76): 8 bytes and a 64-bit
block, the first byte most significant (R41). -/

namespace Sys2Proof.Machine

/-- Byte `i` of a block, bits `(7-i)*8+7` down to `(7-i)*8` (R76). -/
def blockByte (b : Block) (i : Nat) : Byte := b.extractLsb' ((7 - i) * 8) 8

/-- `BlockToBytes` (R76): the 8 bytes of a block, most significant first. Total. -/
def blockToBytes (b : Block) : Vector Byte 8 := Vector.ofFn fun i => blockByte b i

/-- `BytesToBlock` (R75): the block of a sequence of exactly 8 bytes; any other length is a `LengthError`. -/
def bytesToBlock : List Byte → Except EngineError Block
  | [b0, b1, b2, b3, b4, b5, b6, b7] => .ok (b0 ++ b1 ++ b2 ++ b3 ++ b4 ++ b5 ++ b6 ++ b7)
  | _ => .error .lengthError

end Sys2Proof.Machine
end

