-- ==== Sys2Proof/Machine/Flags.lean ====
section
/-! DEFINITION. The error codes (spec/60_exceptions.md R126) and the `STATUS` view (spec/10_state.md R27). -/

namespace Sys2Proof.Machine

/-- The code of an error, as `ERR` holds it and `ERROR(code)` answers it (R126). -/
def EngineError.code : EngineError → BitVec 3
  | .lengthError => 1#3
  | .noKeyError => 2#3
  | .keyLockedError => 3#3
  | .illegalCommand => 4#3
  | .badAccess => 5#3

/-- Whether raising the error also empties the operand buffer (R134: the errors of `KEYGEN`, `ENC` and `DEC`). -/
def EngineError.consumes : EngineError → Bool
  | .lengthError => true
  | .noKeyError => true
  | .keyLockedError => true
  | .illegalCommand => false
  | .badAccess => false

/-- The 16-bit view `STATUS`, bit 15 first: reserved, `ILEN`, reserved, `ERR`, reserved, `EFLAG`, `OV`, `KV` (R27). -/
def statusWord (s : State) : BitVec 16 :=
  0#4 ++ s.ilen ++ 0#1 ++ s.err ++ 0#1 ++ BitVec.ofBool s.eflag ++ BitVec.ofBool s.ov ++ BitVec.ofBool s.kv

end Sys2Proof.Machine
end

