-- ==== Sys2Proof/Machine/Operands.lean ====
section
/-! DEFINITION. The operand buffer (spec/41_bit_block_adapter.md section 2) and the register map of the host port
(spec/20_memory.md R39). -/

namespace Sys2Proof.Machine

/-- Consume (R80): the operand buffer empty, all its bytes zero. -/
def consume (s : State) : State := { s with ibuf := Vector.replicate 8 0#8, ilen := 0#4 }

/-- `min(ILEN + 1, 15)` (R22). -/
def satIncr (n : BitVec 4) : BitVec 4 := if n = 15#4 then 15#4 else n + 1#4

/-- Offers one byte (R81): stored at `IBUF[ILEN]` when `ILEN < 8`, discarded otherwise, and counted in both cases. -/
def pushByte (b : Byte) (s : State) : State :=
  { s with
    ibuf := if h : s.ilen.toNat < 8 then s.ibuf.set s.ilen.toNat b h else s.ibuf
    ilen := satIncr s.ilen }

/-- Offers a whole operand (R82): the buffer replaced by the 8 bytes of `v`. -/
def loadOperand (v : Block) (s : State) : State := { s with ibuf := blockToBytes v, ilen := 8#4 }

/-- The operand a command takes (R79): the block of the 8 bytes offered, a `LengthError` when `ILEN` is not 8. -/
def operand (s : State) : Except EngineError Block :=
  if s.ilen = 8#4 then bytesToBlock s.ibuf.toList else .error .lengthError

/-- The registers of the register map (R39). -/
inductive Reg where
  | cmd
  | status
  | byteIn
  | din
  | dout
  | key
  | obyte (i : BitVec 3)
  | sk (i : BitVec 4)
deriving DecidableEq, Repr

/-- The register that a register number selects; none for the reserved numbers 0x06, 0x07 and 0x20..0x3F (R39). -/
def regOfNumber (n : Regno) : Option Reg :=
  if n = 0x00#6 then some .cmd
  else if n = 0x01#6 then some .status
  else if n = 0x02#6 then some .byteIn
  else if n = 0x03#6 then some .din
  else if n = 0x04#6 then some .dout
  else if n = 0x05#6 then some .key
  else if 0x08#6 ≤ n ∧ n ≤ 0x0F#6 then some (.obyte (n.extractLsb' 0 3))
  else if 0x10#6 ≤ n ∧ n ≤ 0x1F#6 then some (.sk (n.extractLsb' 0 4))
  else none

/-- The width of a register in bits (R39, R44). -/
def regWidth : Reg → Nat
  | .cmd => 8
  | .status => 16
  | .byteIn => 8
  | .din => 64
  | .dout => 64
  | .key => 64
  | .obyte _ => 8
  | .sk _ => 48

/-- What a read of a register gives, whole and of its own width (R39, R44); none for a register that the host
cannot read. -/
def readReg (s : State) : Reg → Option Value
  | .cmd => none
  | .status => some (.status (statusWord s))
  | .byteIn => none
  | .din => none
  | .dout => some (.block s.dout)
  | .key => some (.block s.key)
  | .obyte i => some (.byte (blockByte s.dout i.toNat))
  | .sk i => some (.subkey (s.sk[i.toNat]'i.isLt))

end Sys2Proof.Machine
end

