-- ==== Sys2Proof/Machine/Ops.lean ====
section
/-! DEFINITION. The named operations the meanings share: answering the host, raising an error and what follows it
(spec/60_exceptions.md R134, R135), and the commands of `CMD` (spec/30_encoding.md R60). -/

namespace Sys2Proof.Machine

/-- Gives the host the answer of the transaction (R54). -/
def answer (a : Answer) (s : State) : State := { s with answers := s.answers ++ [a] }

/-- Which transaction an error was raised in, as far as R134 and R55 tell them apart. -/
inductive Issuer where
  /-- A `RegRead`. -/
  | read
  /-- `ENC` or `DEC`. -/
  | cipher
  /-- Any other `RegWrite`. -/
  | write
deriving DecidableEq, Repr

/-- Raises error `e` (R134, the whole of "trap entry"): `ERR` and `EFLAG` written, the operand consumed for the
errors of `KEYGEN`, `ENC` and `DEC`, `OV` cleared when the command was `ENC` or `DEC`, the error answered. Nothing
is saved, no mode changes and control goes nowhere; the next transaction runs by its own rule, and that is the
whole of "trap return" (R135). -/
def raiseError (e : EngineError) (who : Issuer) (s : State) : State :=
  { s with
    ibuf := if e.consumes then Vector.replicate 8 0#8 else s.ibuf
    ilen := if e.consumes then 0#4 else s.ilen
    ov := if who = .cipher then false else s.ov
    err := e.code
    eflag := true
    answers := s.answers ++ [if who = .read then .readError e else .error e] }

/-- Ends a command that succeeded: the operand consumed, `ERR` zero, `OK` answered (R73, R83, R120). -/
def completeCommand (s : State) : State := answer .ok { consume s with err := 0#3 }

/-- Every register at its reset value (R36); the host's own record is no register and stays (assumption log 3). -/
def resetRegisters (s : State) : State := { State.reset with trace := s.trace, answers := s.answers }

/-- A key loaded with its schedule, as one step (R73, R45). -/
def loadKey (k : Block) (s : State) : State := { s with key := k, sk := schedule k, kv := true }

/-- `KEYGEN` (R73): the key lock is tested before the operand (R133). -/
def keygenCommand (s : State) : State :=
  if s.kv then raiseError .keyLockedError .write s
  else match operand s with
    | .error e => raiseError e .write s
    | .ok k => completeCommand (loadKey k s)

/-- `ENC` and `DEC` (R120, R121): the command for the function `f` of a block and a schedule; that a key is loaded
is tested before the operand (R133). -/
def cipherCommand (f : Block → Schedule → Block) (s : State) : State :=
  if s.kv then
    match operand s with
    | .error e => raiseError e .cipher s
    | .ok b => completeCommand { s with dout := f b s.sk, ov := true }
  else raiseError .noKeyError .cipher s

/-- `FLUSH` (R83). -/
def flushCommand (s : State) : State := completeCommand s

/-- `CLR` (R122). -/
def clearCommand (s : State) : State := answer .ok (resetRegisters s)

/-- A write of the opcode `c` to `CMD` (R60): the whole byte is the opcode, any other value than the five raises
`IllegalCommand` (R130). -/
def runCommand (cfg : Cfg) (c : Byte) (s : State) : State :=
  if c = 0x01#8 then keygenCommand s
  else if c = 0x02#8 then cipherCommand (encodeSK cfg) s
  else if c = 0x03#8 then cipherCommand (decodeSK cfg) s
  else if c = 0x04#8 then flushCommand s
  else if c = 0x05#8 then clearCommand s
  else raiseError .illegalCommand .write s

/-- A read of register number `n` (R54): the register's value, or `BadAccess` with the value 0 when the register map
has no such read (R131). -/
def readNumber (n : Regno) (s : State) : State :=
  match (regOfNumber n).bind (readReg s) with
  | some v => answer (.value v) s
  | none => raiseError .badAccess .read s

/-- A write of one byte to register number `n` (R54, R63): `CMD` runs the command, `BYTE_IN` takes the byte, and a
number that is not writable raises `BadAccess`, the byte ignored (R131). A byte is no write of `DIN`, which takes
exactly 64 bits (R44); none is given for it. -/
def writeByte (cfg : Cfg) (n : Regno) (b : Byte) (s : State) : Option State :=
  match regOfNumber n with
  | some .cmd => some (runCommand cfg b s)
  | some .byteIn => some (answer .ok (pushByte b s))
  | some .din => none
  | some .status => some (raiseError .badAccess .write s)
  | some .dout => some (raiseError .badAccess .write s)
  | some .key => some (raiseError .badAccess .write s)
  | some (.obyte _) => some (raiseError .badAccess .write s)
  | some (.sk _) => some (raiseError .badAccess .write s)
  | none => some (raiseError .badAccess .write s)

end Sys2Proof.Machine
end

