-- ==== Sys2Proof/Machine/BadAccess.lean ====
section
/-! DEFINITION. The meanings of the two catch-all rows for accesses outside the register map
(spec/60_exceptions.md R131). -/

namespace Sys2Proof.Machine

/-- `RD n` (R131, R63): the read of register number `n`, a bad access for every `n` of this row. -/
def execRdN (n : Regno) (s : State) : Host.Outcome State Fault Refusal := .next (readNumber n s)

/-- `WR n, b` (R131, R63): the write of `b` to register number `n`, a bad access for every `n` of this row. The one
refusal is a byte for `DIN`, which is no term of this row and no access the port has (R44, D5). -/
def execWrN (n : Regno) (b : Byte) (s : State) : Host.Outcome State Fault Refusal :=
  match writeByte Config.tables n b s with
  | some t => .next t
  | none => .refused .partialWrite

end Sys2Proof.Machine
end

