-- ==== Sys2Proof/Machine/Buffer.lean ====
section
/-! DEFINITION. The meanings of the two operand writes (spec/41_bit_block_adapter.md section 2). -/

namespace Sys2Proof.Machine

/-- `PUSH b` (R81). -/
def execPush (b : Byte) (s : State) : Host.Outcome State Fault Refusal := .next (answer .ok (pushByte b s))

/-- `WRDIN v` (R82). -/
def execWrdin (v : Block) (s : State) : Host.Outcome State Fault Refusal := .next (answer .ok (loadOperand v s))

end Sys2Proof.Machine
end

