-- ==== Sys2Proof/Machine/Commands.lean ====
section
/-! DEFINITION. The meanings of the commands, writes to `CMD` (spec/30_encoding.md R60). A command runs under the
tables of this engine, `Config.tables`. -/

namespace Sys2Proof.Machine

/-- `KEYGEN` (R73). -/
def execKeygen (s : State) : Host.Outcome State Fault Refusal := .next (keygenCommand s)

/-- `ENC` (R120). -/
def execEnc (s : State) : Host.Outcome State Fault Refusal := .next (cipherCommand (encodeSK Config.tables) s)

/-- `DEC` (R121). -/
def execDec (s : State) : Host.Outcome State Fault Refusal := .next (cipherCommand (decodeSK Config.tables) s)

/-- `FLUSH` (R83). -/
def execFlush (s : State) : Host.Outcome State Fault Refusal := .next (flushCommand s)

/-- `CLR` (R122). -/
def execClr (s : State) : Host.Outcome State Fault Refusal := .next (clearCommand s)

/-- `WRCMD c` (R130, R63): the write of `c` to `CMD`, an illegal command for every `c` of this row. -/
def execWrcmd (c : Byte) (s : State) : Host.Outcome State Fault Refusal := .next (runCommand Config.tables c s)

end Sys2Proof.Machine
end

