-- ==== Sys2Proof/Machine/Malformed.lean ====
section
/-! DEFINITION. The rows for words that spell no transaction (spec/30_encoding.md R62 item 3): "They cannot occur on
the port", and each is refused by its name. -/

namespace Sys2Proof.Machine

/-- 0x83xx with `xx` not zero (R62 item 3). -/
def execMalformed83 (_ : Byte) (_ : State) : Host.Outcome State Fault Refusal := .refused .malformed83xx

/-- A read word with `d8` not zero (R62 item 3). -/
def execMalformedRead (_ : Regno) (_ : Byte) (_ : State) : Host.Outcome State Fault Refusal := .refused .malformedRead

/-- `z = 1` in a word other than 0xC000 (R62 item 3). -/
def execMalformedZ (_ : Bool) (_ : Regno) (_ : Byte) (_ : State) : Host.Outcome State Fault Refusal :=
  .refused .malformedZ

end Sys2Proof.Machine
end

