-- ==== Sys2Proof/Machine/Reads.lean ====
section
/-! DEFINITION. The meanings of the legal reads: the value answered, no register written (spec/20_memory.md R46). -/

namespace Sys2Proof.Machine

/-- `RD STATUS` (R123). -/
def execRdStatus (s : State) : Host.Outcome State Fault Refusal :=
  .next (answer (.value (.status (statusWord s))) s)

/-- `RD DOUT` (R124). -/
def execRdDout (s : State) : Host.Outcome State Fault Refusal := .next (answer (.value (.block s.dout)) s)

/-- `RD KEY` (R125). -/
def execRdKey (s : State) : Host.Outcome State Fault Refusal := .next (answer (.value (.block s.key)) s)

/-- `RD OBYTEi` (R84): byte `i` of `DOUT`, byte 0 the most significant. -/
def execRdObyte (i : BitVec 3) (s : State) : Host.Outcome State Fault Refusal :=
  .next (answer (.value (.byte (blockByte s.dout i.toNat))) s)

/-- `RD SKi` (R74). -/
def execRdSk (i : BitVec 4) (s : State) : Host.Outcome State Fault Refusal :=
  .next (answer (.value (.subkey (s.sk[i.toNat]'i.isLt))) s)

end Sys2Proof.Machine
end

