-- ==== Sys2Proof/Machine/Reset.lean ====
section
/-! DEFINITION. The meaning of the reset marker (spec/70_reset_and_hazards.md R145). -/

namespace Sys2Proof.Machine

/-- `RESET` (R145, R59): every register to its reset value; a reset answers nothing (R54). -/
def execReset (s : State) : Host.Outcome State Fault Refusal := .next (resetRegisters s)

end Sys2Proof.Machine
end

