-- ==== Sys2Proof/Machine/Dispatch.lean ====
section
/-! DEFINITION. One transaction, by its row of the opcode map (spec/30_encoding.md R61). -/

namespace Sys2Proof.Machine

/-- The effect of one transaction (R54): one atomic step (R8, R45). -/
def exec (i : Instr) (s : State) : Host.Outcome State Fault Refusal :=
  match i with
  | .reset => Sys2Proof.Machine.execReset s
  | .keygen => Sys2Proof.Machine.execKeygen s
  | .enc => Sys2Proof.Machine.execEnc s
  | .dec => Sys2Proof.Machine.execDec s
  | .flush => Sys2Proof.Machine.execFlush s
  | .clr => Sys2Proof.Machine.execClr s
  | .wrcmd c => Sys2Proof.Machine.execWrcmd c s
  | .push b => Sys2Proof.Machine.execPush b s
  | .wrdin v => Sys2Proof.Machine.execWrdin v s
  | .malformed83 x => Sys2Proof.Machine.execMalformed83 x s
  | .rdStatus => Sys2Proof.Machine.execRdStatus s
  | .rdDout => Sys2Proof.Machine.execRdDout s
  | .rdKey => Sys2Proof.Machine.execRdKey s
  | .rdObyte k => Sys2Proof.Machine.execRdObyte k s
  | .rdSk k => Sys2Proof.Machine.execRdSk k s
  | .rdN n => Sys2Proof.Machine.execRdN n s
  | .malformedRead n d => Sys2Proof.Machine.execMalformedRead n d s
  | .wrN n b => Sys2Proof.Machine.execWrN n b s
  | .malformedZ rw n d => Sys2Proof.Machine.execMalformedZ rw n d s

end Sys2Proof.Machine
end

