-- ==== Sys2Proof/Machine/Step.lean ====
section
/-! DEFINITION. One step of the machine: the host issues the next transaction of its trace (spec/70_reset_and_hazards.md
R149: a program is a finite sequence of transactions issued by the host). -/

namespace Sys2Proof.Machine

/-- One step. The next transaction is read from the trace and executed on the state with its words taken off. With
nothing to issue the engine "simply holds its registers" (R144). A trace that ends inside a payload is refused
(U6); the other names `decode` never gives, and `exec` refuses the malformed rows itself. -/
def step (s : State) : Host.Outcome State Fault Refusal :=
  match decode s.trace with
  | .ok (i, rest) => exec i { s with trace := rest }
  | .error .endOfTrace => .next s
  | .error .truncatedPayload => .refused .truncatedPayload
  | .error .malformed83xx => .refused .malformed83xx
  | .error .malformedRead => .refused .malformedRead
  | .error .malformedZ => .refused .malformedZ

/-- The words of an opcode-table row put before the host's remaining trace, so that the next step issues that
transaction and nothing else of the state changes (assumption log 2). -/
def State.withFetchWord (s : State) (nbits w : Nat) : State := { s with trace := tableWords nbits w ++ s.trace }

end Sys2Proof.Machine
end

