-- ==== Sys2Proof/Machine/Instances.lean ====
section
/-! DEFINITION. Several engines side by side (spec/20_memory.md R53, spec/60_exceptions.md R142): each with its own
state, all with the same tables, stepped in any interleaving. -/

namespace Sys2Proof.Machine

/-- Engine `k` of several takes one step; the others keep their states. -/
def stepInstance (k : Nat) (ss : List State) : Host.Outcome (List State) Fault Refusal :=
  match ss[k]? with
  | none => .next ss
  | some s =>
    match step s with
    | .next t => .next (ss.set k t)
    | .fault r => .fault r
    | .refused r => .refused r

end Sys2Proof.Machine
end

