-- ==== Sys2Proof/Machine/Pseudo.lean ====
section
/-! DEFINITION. The pseudo-instructions and their expansions (spec/30_encoding.md R64). -/

namespace Sys2Proof.Machine

/-- The codes R64 gives: `$`, space, digits, letters, full stop, comma, exclamation mark; no other character has one
there. -/
def asciiCode (c : Char) : Option Byte :=
  if c.isAlphanum || c == '$' || c == ' ' || c == '.' || c == ',' || c == '!' then some (BitVec.ofNat 8 c.toNat)
  else none

/-- `PUSHB b0 b1 ... bn`. -/
def pushb (bs : List Byte) : List Instr := bs.map .push

/-- `PUSHS "..."`: the code of each character, left to right; none for a character without a code. -/
def pushs (cs : List Char) : Option (List Instr) :=
  match cs with
  | [] => some []
  | c :: cs =>
    match asciiCode c, pushs cs with
    | some b, some is => some (.push b :: is)
    | _, _ => none

/-- `LOADKEY k`. -/
def loadkey (k : Block) : List Instr := [.wrdin k, .keygen]

/-- `ENCODE b`. -/
def encodeSeq (b : Block) : List Instr := [.wrdin b, .enc, .rdDout]

/-- `DECODE b`. -/
def decodeSeq (b : Block) : List Instr := [.wrdin b, .dec, .rdDout]

/-- `RDBYTES`. -/
def rdbytes : List Instr :=
  [.rdObyte 0#3, .rdObyte 1#3, .rdObyte 2#3, .rdObyte 3#3, .rdObyte 4#3, .rdObyte 5#3, .rdObyte 6#3, .rdObyte 7#3]

end Sys2Proof.Machine
end

