-- ==== Sys2Proof/Machine/Port.lean ====
section
/-! DEFINITION. The host port (spec/30_encoding.md R54): the three things a host can do, which row of the opcode map
each is (R61, R63), and a program of transactions (spec/70_reset_and_hazards.md R149). -/

namespace Sys2Proof.Machine

/-- What a host can do (R54). The write data stands on the 64 wires of the port; the register's width says how many
of them carry data (R65). -/
inductive Transaction where
  /-- `Reset()`. -/
  | reset
  /-- `RegRead(n)`. -/
  | regRead (n : Regno)
  /-- `RegWrite(n, v)`. -/
  | regWrite (n : Regno) (v : Block)
deriving DecidableEq, Repr

/-- The byte of write data that is 8 bits wide: the upper wires are driven to 0 (R65); data that is wider is not a
write of an 8-bit register (R44, U7). -/
def narrowByte (v : Block) : Option Byte := if v.extractLsb' 8 56 = 0#56 then some (v.extractLsb' 0 8) else none

/-- The row of a command write (R60, R61). -/
def commandRow (c : Byte) : Instr :=
  if c = 0x01#8 then .keygen
  else if c = 0x02#8 then .enc
  else if c = 0x03#8 then .dec
  else if c = 0x04#8 then .flush
  else if c = 0x05#8 then .clr
  else .wrcmd c

/-- The row of a read (R39, R61). -/
def readRow (n : Regno) : Instr :=
  match regOfNumber n with
  | some .status => .rdStatus
  | some .dout => .rdDout
  | some .key => .rdKey
  | some (.obyte i) => .rdObyte i
  | some (.sk i) => .rdSk i
  | some .cmd => .rdN n
  | some .byteIn => .rdN n
  | some .din => .rdN n
  | none => .rdN n

/-- The row of a write (R39, R61); a write of a register that cannot be written ignores its data (R131), and one
whose data is wider than the register is refused (R44, U7). -/
def writeRow (n : Regno) (v : Block) : Except Refusal Instr :=
  match regOfNumber n with
  | some .cmd =>
    match narrowByte v with
    | some c => .ok (commandRow c)
    | none => .error .partialWrite
  | some .byteIn =>
    match narrowByte v with
    | some b => .ok (.push b)
    | none => .error .partialWrite
  | some .din => .ok (.wrdin v)
  | some .status => .ok (.wrN n (v.extractLsb' 0 8))
  | some .dout => .ok (.wrN n (v.extractLsb' 0 8))
  | some .key => .ok (.wrN n (v.extractLsb' 0 8))
  | some (.obyte _) => .ok (.wrN n (v.extractLsb' 0 8))
  | some (.sk _) => .ok (.wrN n (v.extractLsb' 0 8))
  | none => .ok (.wrN n (v.extractLsb' 0 8))

/-- The row of the opcode map that a transaction is. -/
def rowOf : Transaction → Except Refusal Instr
  | .reset => .ok .reset
  | .regRead n => .ok (readRow n)
  | .regWrite n v => writeRow n v

/-- The transaction that a row spells (R63); none for the words that spell none (R62 item 3). -/
def transactionOf : Instr → Option Transaction
  | .reset => some .reset
  | .keygen => some (.regWrite 0x00#6 0x01#64)
  | .enc => some (.regWrite 0x00#6 0x02#64)
  | .dec => some (.regWrite 0x00#6 0x03#64)
  | .flush => some (.regWrite 0x00#6 0x04#64)
  | .clr => some (.regWrite 0x00#6 0x05#64)
  | .wrcmd c => some (.regWrite 0x00#6 (0#56 ++ c))
  | .push b => some (.regWrite 0x02#6 (0#56 ++ b))
  | .wrdin v => some (.regWrite 0x03#6 v)
  | .malformed83 _ => none
  | .rdStatus => some (.regRead 0x01#6)
  | .rdDout => some (.regRead 0x04#6)
  | .rdKey => some (.regRead 0x05#6)
  | .rdObyte i => some (.regRead (0b001#3 ++ i))
  | .rdSk i => some (.regRead (0b01#2 ++ i))
  | .rdN n => some (.regRead n)
  | .malformedRead _ _ => none
  | .wrN n b => some (.regWrite n (0#56 ++ b))
  | .malformedZ _ _ _ => none

/-- One transaction at the port (R54): the effect of its row. -/
def transact (t : Transaction) (s : State) : Host.Outcome State Fault Refusal :=
  match rowOf t with
  | .ok i => exec i s
  | .error r => .refused r

/-- A run (R149): the transactions of a program one after the other, each from the state the one before it left
(R48), until one is refused. -/
def runProgram : List Instr → State → Host.Outcome State Fault Refusal
  | [], s => .next s
  | i :: is, s =>
    match exec i s with
    | .next t => runProgram is t
    | .fault r => .fault r
    | .refused r => .refused r

end Sys2Proof.Machine
end

