-- ==== Sys2Proof/Machine/Signals.lean ====
section
/-! DEFINITION. The signal-level port (spec/30_encoding.md R65, informative), a reset that cancels an outstanding
transaction (spec/70_reset_and_hazards.md R146), and the latency (R157). A layer around the engine: no transaction
rule reads it (R65), and `step` does not. -/

namespace Sys2Proof.Machine

/-- The inputs at a rising edge of `clk` (R65). -/
structure Pins where
  rst : Bool
  req : Bool
  rw : Bool
  regno : Regno
  wdata : BitVec 64
deriving DecidableEq, Repr

/-- The outputs in a cycle (R65). -/
structure PortOut where
  ack : Bool
  rdata : BitVec 64
  resp : BitVec 3
deriving DecidableEq, Repr

/-- The engine behind its port: how many cycles the outstanding request has still to wait, if there is one, and how
many requests were begun, whether answered, dropped or cancelled by a reset. -/
structure PortState where
  engine : State
  waiting : Option Nat
  begun : Nat
deriving DecidableEq, Repr

/-- The opcode on the wires, if they are a write of `CMD`: its byte is the whole opcode (R60) and no data. -/
def pinOpcode (p : Pins) : Option Byte :=
  if p.rw ∧ regOfNumber p.regno = some .cmd then some (p.wdata.extractLsb' 0 8) else none

/-- `T_LAT` in clock cycles, at least 1 (R11, R157), of the request on the wires `p` if it begins at the port `q`. A
number of that request's own: it may differ between an `ENC` and a read (R157), and it is not inherited from a request
that was dropped or cancelled; but it depends on no data (R150). That `STATUS` and an opcode are no data is DEDUCED,
assumption log 7. -/
def latency (q : PortState) (p : Pins) : Nat :=
  Config.extraLatency q.begun (statusWord q.engine) p.rw p.regno (pinOpcode p) + 1

/-- A read value on the 64 wires of `rdata`, the upper bits 0 (R65). -/
def valueWires : Value → BitVec 64
  | .byte v => 0#56 ++ v
  | .status v => 0#48 ++ v
  | .subkey v => 0#16 ++ v
  | .block v => v

/-- `rdata` of an answer: 0 for a read that is an error (R55) and for a write. -/
def answerData : Answer → BitVec 64
  | .value v => valueWires v
  | .ok => 0#64
  | .error _ => 0#64
  | .readError _ => 0#64

/-- `resp` of an answer: 0 is `OK`, 1..5 is `ERROR(code)` (R65). -/
def answerResp : Answer → BitVec 3
  | .ok => 0#3
  | .value _ => 0#3
  | .error e => e.code
  | .readError e => e.code

/-- The outputs in a cycle in which nothing is answered. -/
def noAnswer : PortOut := { ack := false, rdata := 0#64, resp := 0#3 }

/-- The outputs in the cycle of an answer (R65). -/
def answered (a : Option Answer) : PortOut :=
  match a with
  | some a => { ack := true, rdata := answerData a, resp := answerResp a }
  | none => { ack := true, rdata := 0#64, resp := 0#3 }

/-- The transaction on the wires (R65), `wdata` whole: the register's width says how much of it is data. -/
def pinTransaction (p : Pins) : Transaction := if p.rw then .regWrite p.regno p.wdata else .regRead p.regno

/-- One rising edge of `clk` (R65): a reset wins and cancels the outstanding transaction (R146); a request waits its
latency and takes effect at the edge of its `ack`. DESIGN CHOICE (assumption log 7) where R65 and R146 are silent:
`T_LAT` is fixed at the edge where the request begins, from the wires as they are then; the transaction is the one on
the wires at the `ack` edge, whatever they were while the request waited; a `req` still high at the edge after an
answered `ack` begins a new request, so that the same transaction is done a second time (a `PUSH` pushes twice); a
`req` dropped before its `ack` is forgotten; a `req` still held at the edge after a cancelling reset is a new request
on an idle port, and is answered. -/
def clockEdge (p : Pins) (q : PortState) : Host.Outcome (PortState × PortOut) Fault Refusal :=
  if p.rst then .next ({ q with engine := resetRegisters q.engine, waiting := none }, noAnswer)
  else if p.req then
    match q.waiting with
    | none => .next ({ q with waiting := some (latency q p - 1), begun := q.begun + 1 }, noAnswer)
    | some (n + 1) => .next ({ q with waiting := some n }, noAnswer)
    | some 0 =>
      match transact (pinTransaction p) q.engine with
      | .next t => .next ({ q with engine := t, waiting := none }, answered t.answers.getLast?)
      | .fault r => .fault r
      | .refused r => .refused r
  else .next ({ q with waiting := none }, noAnswer)

end Sys2Proof.Machine
end

