-- ==== Sys2Proof/Machine/Tables.lean ====
section
/-! DEFINITION. Raw table records and the two named configurations (spec/42_round_function.md R96, R98, R99). The
machine reads neither `REF` nor `TST`: they make the spec's vectors concrete. -/

namespace Sys2Proof.Machine

/-- A list of exactly `n` entries as a vector. -/
def exactly {α : Type} (n : Nat) (l : List α) : Option (Vector α n) :=
  if h : l.length = n then some ⟨l.toArray, by simp [h]⟩ else none

/-- The entries of a bit-index table, each of which must be in 0..31 (R96). -/
def bitIndexes : List Nat → Option (List (Fin 32))
  | [] => some []
  | x :: xs =>
    if h : x < 32 then
      match bitIndexes xs with
      | some ys => some (⟨x, h⟩ :: ys)
      | none => none
    else none

/-- The entries of one row of the substitution matrix, each of which must be in 0..15 (R96). -/
def nibbles : List Nat → Option (List (BitVec 4))
  | [] => some []
  | x :: xs =>
    if x < 16 then
      match nibbles xs with
      | some ys => some (BitVec.ofNat 4 x :: ys)
      | none => none
    else none

/-- The rows of the substitution matrix, each of exactly 16 entries (R96). -/
def sboxRows : List (List Nat) → Option (List (Vector (BitVec 4) 16))
  | [] => some []
  | r :: rs =>
    match (nibbles r).bind (exactly 16), sboxRows rs with
    | some v, some vs => some (v :: vs)
    | _, _ => none

/-- The configuration a raw record stands for; a record that is not well formed is refused (R40, U2). -/
def cfgOfRaw (r : RawCfg) : Option Cfg :=
  match (bitIndexes r.eTable).bind (exactly 48), (bitIndexes r.pTable).bind (exactly 32),
      (sboxRows r.sbox).bind (exactly 4) with
  | some e, some p, some b => some ⟨e, p, b⟩
  | _, _, _ => none

/-- `REF`, the reference configuration (R98): `E_TABLE[j] = j mod 32`, `P_TABLE[j] = j`, and the printed matrix. -/
def refCfg : Cfg where
  eTable := Vector.ofFn fun j => Fin.ofNat 32 j
  pTable := Vector.ofFn fun j => j
  sbox := #v[
    #v[14, 4, 13, 1, 2, 15, 11, 8, 3, 10, 6, 12, 5, 9, 0, 7],
    #v[0, 15, 7, 4, 14, 2, 13, 1, 10, 6, 12, 11, 9, 5, 3, 8],
    #v[4, 1, 14, 8, 13, 6, 2, 11, 15, 12, 9, 7, 3, 10, 5, 0],
    #v[15, 12, 8, 2, 4, 9, 1, 7, 5, 11, 3, 14, 10, 0, 6, 13]]

/-- `TST`, the test configuration (R99), made of formulas alone. -/
def tstCfg : Cfg where
  eTable := Vector.ofFn fun j => Fin.ofNat 32 (5 * j + 3)
  pTable := Vector.ofFn fun j => Fin.ofNat 32 (7 * j + 5)
  sbox := Vector.ofFn fun r => Vector.ofFn fun c => BitVec.ofNat 4 (5 * c + 3 * r + 1)

end Sys2Proof.Machine
end

