-- ==== Sys2Proof/Safety.lean ====
section
/-! DEFINITION. What holds in every state a run reaches (spec/10_state.md R35) and what a host may take as a result
(spec/70_reset_and_hazards.md R153), in the terms the statements use. -/

namespace Sys2Proof.Machine

/-- The invariants of R35; item 6, that the schedule has exactly 16 entries, holds by the type of `sk`. -/
structure EngineInv (s : State) : Prop where
  /-- Item 1: the schedule belongs to the key. -/
  scheduleOfKey : s.kv = true → s.sk = schedule s.key
  /-- Item 2: without a key there is no key, no schedule and no result. -/
  emptyWithoutKey : s.kv = false → s.key = 0#64 ∧ s.sk = Vector.replicate 16 0#48 ∧ s.ov = false ∧ s.dout = 0#64
  /-- Item 3: a valid result needs a key. -/
  resultNeedsKey : s.ov = true → s.kv = true
  /-- Item 4: the buffer is zero from `min(ILEN, 8)` up (`ILEN` is at most 15 by its width). -/
  bufferZeroAbove : ∀ i : Fin 8, min s.ilen.toNat 8 ≤ i.val → s.ibuf[i] = 0#8
  /-- Item 5, first half: the codes 6 and 7 never occur. -/
  errAtMostFive : s.err ≤ 5#3
  /-- Item 5, second half: a recorded error has raised the flag. -/
  errRaisesFlag : s.err ≠ 0#3 → s.eflag = true

/-- The states that transactions reach from reset (R35), whatever the host has still to issue. -/
inductive Reachable : State → Prop where
  /-- The reset state before some program. -/
  | reset (trace : List TWord) : Reachable { State.reset with trace := trace }
  /-- What a transaction leaves. -/
  | transaction (i : Instr) (s t : State) : Reachable s → exec i s = .next t → Reachable t

/-- The registers of R16, all of them: what the state is without the model's record of the host's side. -/
def SameRegisters (s t : State) : Prop :=
  s.key = t.key ∧ s.kv = t.kv ∧ s.sk = t.sk ∧ s.ibuf = t.ibuf ∧ s.ilen = t.ilen ∧ s.dout = t.dout ∧ s.ov = t.ov ∧
    s.err = t.err ∧ s.eflag = t.eflag

end Sys2Proof.Machine
end

