-- ==== Sys2Proof/Certificates/Slice0/Obligations.lean ====
section
/-! DEFINITION. The statements for the provers, from the numbered rules of spec/. A next state is written out as the
record the rule gives, every register not named in it unchanged, so that each result statement is at once the
completion and the frame of its transaction. The engine has no memory (R37) and no program counter (R30). -/

open Sys2Proof Sys2Proof.Machine

/-! ## Reset and the commands -/

/-- R36: after reset and after `CLR` every register holds zero, and so do the views `STATUS` and `OBYTE0..7`; both
complete in every state. Reset answers nothing, `CLR` answers `OK` (R145, R122). That the words still to be issued and
the answers given stand in the state, and that neither touches them, is the model's choice, assumption log 2 and 3. -/
def Obligations.ResetAndClearLeaveZero : Prop :=
  ∀ s : State, ∃ t u : State, exec .reset s = .next t ∧ exec .clr s = .next u ∧
    (∀ x : State, x = t ∨ x = u ∨ x = State.reset →
      x.key = 0#64 ∧ x.kv = false ∧ (∀ i : Fin 16, x.sk[i] = 0#48) ∧ (∀ i : Fin 8, x.ibuf[i] = 0#8) ∧
        x.ilen = 0#4 ∧ x.dout = 0#64 ∧ x.ov = false ∧ x.err = 0#3 ∧ x.eflag = false ∧
        statusWord x = 0x0000#16 ∧ ∀ i : Fin 8, blockByte x.dout i = 0x00#8) ∧
    t.trace = s.trace ∧ u.trace = s.trace ∧ t.answers = s.answers ∧ u.answers = s.answers ++ [.ok]

/-- R73: `KEYGEN`. The key lock is tested first, then the length; on success the key is the eight bytes, the first
most significant, and the schedule is `Subkey(k, i)`. -/
def Obligations.KeygenLoadsKeyOrRefuses : Prop :=
  encode .keygen = [0x8001#16] ∧ ∀ s : State,
    (s.kv = true →
      exec .keygen s = .next { s with
          ibuf := Vector.replicate 8 0x00#8, ilen := 0#4, err := 3#3, eflag := true
          answers := s.answers ++ [.error .keyLockedError] }) ∧
    (s.kv = false → s.ilen ≠ 8#4 →
      exec .keygen s = .next { s with
          ibuf := Vector.replicate 8 0x00#8, ilen := 0#4, err := 1#3, eflag := true
          answers := s.answers ++ [.error .lengthError] }) ∧
    (s.kv = false → s.ilen = 8#4 → ∀ k : Block,
      k = s.ibuf[0] ++ s.ibuf[1] ++ s.ibuf[2] ++ s.ibuf[3] ++ s.ibuf[4] ++ s.ibuf[5] ++ s.ibuf[6] ++ s.ibuf[7] →
      exec .keygen s = .next { s with
          key := k, kv := true, sk := Vector.ofFn fun i : Fin 16 => subkey k i
          ibuf := Vector.replicate 8 0x00#8, ilen := 0#4, err := 0#3, answers := s.answers ++ [.ok] })

/-- R120: `ENC`. That a key is loaded is tested first, then the length; on success `DOUT` is `EncodeSK` of the eight
bytes under `SK`, with the tables of this engine. -/
def Obligations.EncEncryptsOrRefuses : Prop :=
  encode .enc = [0x8002#16] ∧ ∀ s : State,
    (s.kv = false →
      exec .enc s = .next { s with
          ibuf := Vector.replicate 8 0x00#8, ilen := 0#4, ov := false, err := 2#3
          eflag := true, answers := s.answers ++ [.error .noKeyError] }) ∧
    (s.kv = true → s.ilen ≠ 8#4 →
      exec .enc s = .next { s with
          ibuf := Vector.replicate 8 0x00#8, ilen := 0#4, ov := false, err := 1#3
          eflag := true, answers := s.answers ++ [.error .lengthError] }) ∧
    (s.kv = true → s.ilen = 8#4 → ∀ b : Block,
      b = s.ibuf[0] ++ s.ibuf[1] ++ s.ibuf[2] ++ s.ibuf[3] ++ s.ibuf[4] ++ s.ibuf[5] ++ s.ibuf[6] ++ s.ibuf[7] →
      exec .enc s = .next { s with
          dout := encodeSK Config.tables b s.sk, ov := true
          ibuf := Vector.replicate 8 0x00#8, ilen := 0#4, err := 0#3, answers := s.answers ++ [.ok] })

/-- R121: `DEC`, exactly as `ENC` with `DecodeSK` in place of `EncodeSK`. -/
def Obligations.DecDecryptsOrRefuses : Prop :=
  encode .dec = [0x8003#16] ∧ ∀ s : State,
    (s.kv = false →
      exec .dec s = .next { s with
          ibuf := Vector.replicate 8 0x00#8, ilen := 0#4, ov := false, err := 2#3
          eflag := true, answers := s.answers ++ [.error .noKeyError] }) ∧
    (s.kv = true → s.ilen ≠ 8#4 →
      exec .dec s = .next { s with
          ibuf := Vector.replicate 8 0x00#8, ilen := 0#4, ov := false, err := 1#3
          eflag := true, answers := s.answers ++ [.error .lengthError] }) ∧
    (s.kv = true → s.ilen = 8#4 → ∀ b : Block,
      b = s.ibuf[0] ++ s.ibuf[1] ++ s.ibuf[2] ++ s.ibuf[3] ++ s.ibuf[4] ++ s.ibuf[5] ++ s.ibuf[6] ++ s.ibuf[7] →
      exec .dec s = .next { s with
          dout := decodeSK Config.tables b s.sk, ov := true
          ibuf := Vector.replicate 8 0x00#8, ilen := 0#4, err := 0#3, answers := s.answers ++ [.ok] })

/-- R83: `FLUSH` empties the operand buffer and clears `ERR`, in any state; on an empty buffer of zeros it changes no
register but `ERR`. -/
def Obligations.FlushEmptiesBuffer : Prop :=
  encode .flush = [0x8004#16] ∧ (∀ s : State,
    exec .flush s = .next { s with
          ibuf := Vector.replicate 8 0x00#8, ilen := 0#4, err := 0#3
          answers := s.answers ++ [.ok] }) ∧
  ∀ s : State, s.ilen = 0#4 → (∀ i : Fin 8, s.ibuf[i] = 0x00#8) →
    exec .flush s = .next { s with err := 0#3, answers := s.answers ++ [.ok] }

/-- R130: a write to `CMD` of any value but the five opcodes raises `IllegalCommand` and changes `ERR` and `EFLAG`
only. -/
def Obligations.IllegalCommandChangesErrorOnly : Prop :=
  ∀ (s : State) (c : Byte), c.toNat = 0 ∨ 6 ≤ c.toNat →
    encode (.wrcmd c) = [0x8000#16 + c.setWidth 16] ∧
    exec (.wrcmd c) s = .next { s with err := 4#3, eflag := true, answers := s.answers ++ [.error .illegalCommand] }

/-! ## The operand writes -/

/-- R81: `PUSH b` stores the byte at `IBUF[ILEN]` when `ILEN < 8` and nowhere otherwise, counts it up to 15, answers
`OK` and leaves every other register. -/
def Obligations.PushStoresAndCounts : Prop :=
  ∀ (s : State) (b : Byte), encode (.push b) = [0x8200#16 + b.setWidth 16] ∧ ∃ buf : Vector Byte 8, ∃ n : BitVec 4,
    exec (.push b) s = .next { s with ibuf := buf, ilen := n, answers := s.answers ++ [.ok] } ∧
    (∀ i : Fin 8, buf[i] = if i.val = s.ilen.toNat then b else s.ibuf[i]) ∧
    n.toNat = min (s.ilen.toNat + 1) 15

/-- R82: `WRDIN v` replaces the buffer by the bytes of `v`, the first most significant, whatever it held. -/
def Obligations.WrdinReplacesBuffer : Prop :=
  ∀ (s : State) (v : Block), ∃ buf : Vector Byte 8,
    exec (.wrdin v) s = .next { s with ibuf := buf, ilen := 8#4, answers := s.answers ++ [.ok] } ∧
    ∀ i : Fin 8, buf[i] = v.extractLsb' ((7 - i.val) * 8) 8

/-- R82, corner case: `WRDIN v` leaves the same registers but `ERR` as `FLUSH` followed by eight `PUSH` of the bytes
of `v` in order, and twice is the same as once. -/
def Obligations.WrdinEqualsEightPushes : Prop :=
  ∀ (s : State) (v : Block), ∃ t u w : State,
    exec (.wrdin v) s = .next t ∧
    runProgram (.flush :: (blockToBytes v).toList.map .push) s = .next u ∧
    runProgram [.wrdin v, .wrdin v] s = .next w ∧
    SameRegisters { t with err := 0#3 } u ∧ SameRegisters t w

/-! ## The reads -/

/-- R27, R123: `RD STATUS` answers the 16-bit view and writes no register. -/
def Obligations.ReadStatusAnswersView : Prop :=
  ∀ s : State, ∃ v : BitVec 16,
    exec .rdStatus s = .next { s with answers := s.answers ++ [.value (.status v)] } ∧
    v.toNat = s.kv.toNat + 2 * s.ov.toNat + 4 * s.eflag.toNat + 16 * s.err.toNat + 256 * s.ilen.toNat ∧
    v.getLsbD 3 = false ∧ v.getLsbD 7 = false ∧ v.extractLsb' 12 4 = 0#4

/-- R124, R125, R74, R84: the data reads answer the register, or the named byte of it, and write no register. -/
def Obligations.DataReadsAnswerRegisters : Prop :=
  ∀ s : State,
    exec .rdDout s = .next { s with answers := s.answers ++ [.value (.block s.dout)] } ∧
    exec .rdKey s = .next { s with answers := s.answers ++ [.value (.block s.key)] } ∧
    (∀ i : BitVec 4, exec (.rdSk i) s =
      .next { s with answers := s.answers ++ [.value (.subkey (s.sk[i.toNat]'i.isLt))] }) ∧
    ∀ i : BitVec 3, ∃ v : Byte,
      exec (.rdObyte i) s = .next { s with answers := s.answers ++ [.value (.byte v)] } ∧
      ∀ j : Fin 8, v.getLsbD j = s.dout.getLsbD ((7 - i.toNat) * 8 + j)

/-- R42: the eight byte views together are `DOUT`: what `RDBYTES` answers, first byte most significant, is what
`RD DOUT` answers. -/
def Obligations.OutputViewsAgree : Prop :=
  ∀ s : State, ∃ b : Vector Byte 8,
    runProgram rdbytes s =
      .next { s with answers := s.answers ++ b.toList.map fun x => Answer.value (.byte x) } ∧
    bytesToBlock b.toList = .ok s.dout

/-! ## Bad accesses -/

/-- R131: a read or a write whose direction and register number are not a row of the register map raises
`BadAccess` and changes `ERR` and `EFLAG` only, the data of the write ignored; the read answers the value 0 with the
error, whose code is 5. -/
def Obligations.BadAccessChangesErrorOnly : Prop :=
  (∀ (s : State) (n : Regno), n.toNat ∈ [0x00, 0x02, 0x03, 0x06, 0x07] ∨ 0x20 ≤ n.toNat →
    exec (.rdN n) s =
      .next { s with err := 5#3, eflag := true, answers := s.answers ++ [.readError .badAccess] }) ∧
  answerData (.readError .badAccess) = 0#64 ∧ answerResp (.readError .badAccess) = 5#3 ∧
  ∀ (s : State) (n : Regno) (b : Byte), n.toNat = 0x01 ∨ 0x04 ≤ n.toNat →
    exec (.wrN n b) s = .next { s with err := 5#3, eflag := true, answers := s.answers ++ [.error .badAccess] }

/-- R63: a catch-all term whose operand belongs to another row (which the opcode map never spells) does what the
register map says of it, and a byte written to `DIN`, a 64-bit register, is refused (R44). The model's choice of a
meaning for such terms is assumption log 5. -/
def Obligations.CatchAllTermsFollowRegisterMap : Prop :=
  (∀ (s : State) (b : Byte), exec (.wrN 0x00#6 b) s = exec (commandRow b) s ∧
    exec (.wrcmd b) s = exec (commandRow b) s ∧ exec (.wrN 0x02#6 b) s = exec (.push b) s ∧
    exec (.wrN 0x03#6 b) s = .refused .partialWrite) ∧
  ∀ (s : State) (n : Regno), exec (.rdN n) s = exec (readRow n) s

/-- R62 item 3: the words that spell no transaction are refused by name, whatever the state. That it is `exec` that
refuses them, after the decoder has named their row, is assumption log 4. -/
def Obligations.MalformedWordsRefused : Prop :=
  (∀ (s : State) (x : Byte), exec (.malformed83 x) s = .refused .malformed83xx) ∧
  (∀ (s : State) (n : Regno) (d : Byte), exec (.malformedRead n d) s = .refused .malformedRead) ∧
  (∀ (s : State) (rw : Bool) (n : Regno) (d : Byte), exec (.malformedZ rw n d) s = .refused .malformedZ) ∧
  ∀ (s : State) (w : TWord) (ws : List TWord), s.trace = w :: ws →
    (w.extractLsb' 8 8 = 0x83#8 → w ≠ 0x8300#16 → step s = .refused .malformed83xx) ∧
    (w.getLsbD 15 = false → w.getLsbD 14 = false → w.extractLsb' 0 8 ≠ 0x00#8 → step s = .refused .malformedRead) ∧
    (w.getLsbD 14 = true → w ≠ 0xC000#16 → step s = .refused .malformedZ)

/-! ## Whole-machine rules of the register layer -/

/-- R133: when several causes hold, the state error is reported and not the length error. -/
def Obligations.StateErrorBeforeLengthError : Prop :=
  ∀ s : State, s.ilen ≠ 8#4 →
    (s.kv = false → ∀ i : Instr, i = .enc ∨ i = .dec →
      ∃ t, exec i s = .next t ∧ t.err = 2#3 ∧ t.answers = s.answers ++ [.error .noKeyError]) ∧
    (s.kv = true → ∃ t, exec .keygen s = .next t ∧ t.err = 3#3 ∧ t.answers = s.answers ++ [.error .keyLockedError])

/-- R134: whatever transaction raised it, an error writes its code to `ERR` and sets `EFLAG`, consumes the operand
for the errors of `KEYGEN`, `ENC` and `DEC` and for no other, clears `OV` exactly for the errors of `ENC` and
`DEC`, and changes nothing else. -/
def Obligations.ErrorEffectIsWholeAndOnly : Prop :=
  ∀ (i : Instr) (s t : State) (e : EngineError) (a : Answer), i.wellFormed = true → exec i s = .next t →
    t.answers = s.answers ++ [a] → a = .error e ∨ a = .readError e →
    t.err = e.code ∧ t.eflag = true ∧ t.key = s.key ∧ t.kv = s.kv ∧ t.sk = s.sk ∧ t.dout = s.dout ∧
    t.trace = s.trace ∧
    (if e = .lengthError ∨ e = .noKeyError ∨ e = .keyLockedError then
      t.ibuf = Vector.replicate 8 0x00#8 ∧ t.ilen = 0#4 ∧ (i = .keygen ∨ i = .enc ∨ i = .dec)
     else t.ibuf = s.ibuf ∧ t.ilen = s.ilen) ∧
    (if i = .enc ∨ i = .dec then t.ov = false else t.ov = s.ov)

/-- R54, R55, R150: every transaction that the opcode map spells completes in every state with exactly one answer, a
reset with none; `PUSH`, `WRDIN` and the legal reads answer no error. -/
def Obligations.EveryTransactionIsAnswered : Prop :=
  ∀ (i : Instr) (s : State), i.wellFormed = true → i.malformedName = none →
    ∃ t : State, exec i s = .next t ∧ t.trace = s.trace ∧
      (i = .reset → t.answers = s.answers) ∧
      (i ≠ .reset → ∃ a : Answer, t.answers = s.answers ++ [a] ∧
        ((∃ b, i = .push b) ∨ (∃ v, i = .wrdin v) → a = .ok) ∧
        (i = .rdStatus ∨ i = .rdDout ∨ i = .rdKey ∨ (∃ j, i = .rdObyte j) ∨ (∃ j, i = .rdSk j) →
          ∃ v : Value, a = .value v))

/-- R46: a legal read leaves every register, and a second read answers the same value. -/
def Obligations.ReadsHaveNoSideEffect : Prop :=
  ∀ (n : Regno) (s t : State) (v : Value), exec (readRow n) s = .next t → t.answers = s.answers ++ [.value v] →
    SameRegisters s t ∧
    ∃ u : State, exec (readRow n) t = .next u ∧ u.answers = t.answers ++ [.value v] ∧ SameRegisters s u

/-- R18, R19, R20: once a key is loaded, no transaction but reset and `CLR` changes the key, the schedule or `KV`.
The term `wrcmd 0x05` stands beside `CLR` because it is the same write (R63). -/
def Obligations.LoadedKeyIsImmutable : Prop :=
  ∀ (i : Instr) (s t : State), exec i s = .next t → s.kv = true →
    t.key = s.key ∧ t.sk = s.sk ∧ t.kv = true ∨
      i = .reset ∨ i = .clr ∨ i = .wrcmd 0x05#8 ∨ i = .wrN 0x00#6 0x05#8

/-- R26: `EFLAG` is sticky: only reset and `CLR` clear it, and it is set whenever `ERR` is written with a non-zero
code. -/
def Obligations.ErrorFlagIsSticky : Prop :=
  ∀ (i : Instr) (s t : State), i.wellFormed = true → exec i s = .next t →
    (s.eflag = true → t.eflag = false → i = .reset ∨ i = .clr) ∧
    (t.err ≠ s.err → t.err ≠ 0#3 → t.eflag = true) ∧
    (s.eflag = false → t.eflag = true → t.err ≠ 0#3)

/-- R24: what writes `OV`: a successful `ENC` or `DEC` sets it, a failed one, reset and `CLR` clear it, and every
other transaction leaves it. -/
def Obligations.OutputValidTracksLastCipherCommand : Prop :=
  ∀ (i : Instr) (s t : State), i.wellFormed = true → exec i s = .next t →
    (i = .enc ∨ i = .dec → (t.ov = true ↔ t.answers = s.answers ++ [.ok])) ∧
    (i = .reset ∨ i = .clr → t.ov = false) ∧
    (i ≠ .enc → i ≠ .dec → i ≠ .reset → i ≠ .clr → t.ov = s.ov ∧ t.dout = s.dout)

/-- R34: the result of a successful `ENC` or `DEC` is a function of `SK` and the operand alone: two engines that
agree on those, whatever else they hold, leave the same `DOUT`. -/
def Obligations.ResultDependsOnScheduleAndOperandOnly : Prop :=
  ∀ (i : Instr) (s t s' t' : State), i = .enc ∨ i = .dec → exec i s = .next s' → exec i t = .next t' →
    s'.answers = s.answers ++ [.ok] → t'.answers = t.answers ++ [.ok] → s.sk = t.sk → s.ibuf = t.ibuf →
    s'.dout = t'.dout

/-! ## The invariants -/

/-- R36 with R35: the reset state meets the invariants, whatever the host is about to issue. -/
def Obligations.ResetMeetsInvariants : Prop :=
  ∀ ws : List TWord, EngineInv { State.reset with trace := ws }

/-- R35: every step keeps the invariants, from every state that meets them. -/
def Obligations.StepKeepsInvariants : Prop :=
  ∀ s t : State, EngineInv s → step s = .next t → EngineInv t

/-- R35: in every state reachable from reset by any sequence of transactions the invariants hold, `ILEN` is at most
15 and the schedule has exactly 16 entries. -/
def Obligations.ReachableStatesMeetInvariants : Prop :=
  ∀ s : State, Reachable s →
    (s.kv = true → ∀ i : Fin 16, s.sk[i] = subkey s.key i) ∧
    (s.kv = false → s.key = 0#64 ∧ (∀ i : Fin 16, s.sk[i] = 0#48) ∧ s.ov = false ∧ s.dout = 0#64) ∧
    (s.ov = true → s.kv = true) ∧
    s.ilen.toNat ≤ 15 ∧ (∀ i : Fin 8, min s.ilen.toNat 8 ≤ i.val → s.ibuf[i] = 0#8) ∧
    s.err.toNat ≤ 5 ∧ (s.err ≠ 0#3 → s.eflag = true) ∧
    s.sk.toList.length = 16

/-- R120 with R35 item 1: in a reachable state with a key, a successful `ENC` gives `Encode(b, KEY)` and a
successful `DEC` gives `Decode(b, KEY)`. -/
def Obligations.ReachableCipherResultIsOfKey : Prop :=
  ∀ (s : State) (b : Block), Reachable s → s.kv = true → s.ilen = 8#4 → s.ibuf = blockToBytes b →
    (∃ t, exec .enc s = .next t ∧ t.dout = encodeBlock Config.tables b s.key ∧ t.ov = true) ∧
    ∃ t, exec .dec s = .next t ∧ t.dout = decodeBlock Config.tables b s.key ∧ t.ov = true

/-- R119: from any state, `CLR ; WRDIN k ; KEYGEN ; WRDIN b ; ENC` answers `OK` five times and leaves
`DOUT = Encode(b, k)`, `OV = 1`, `KV = 1`, `KEY = k`, `ERR = 0`, `EFLAG = 0`, `ILEN = 0`; with `DEC` it leaves
`Decode(b, k)`; and the same with eight `PUSH` for each `WRDIN`. -/
def Obligations.LoadKeyThenCipherGivesFunction : Prop :=
  ∀ (s : State) (k b : Block) (cmd : Instr) (f : Cfg → Block → Block → Block),
    cmd = .enc ∧ f = encodeBlock ∨ cmd = .dec ∧ f = decodeBlock →
    (∃ t, runProgram [.clr, .wrdin k, .keygen, .wrdin b, cmd] s = .next t ∧
      t.answers = s.answers ++ [.ok, .ok, .ok, .ok, .ok] ∧ t.dout = f Config.tables b k ∧ t.ov = true ∧
      t.kv = true ∧ t.key = k ∧ t.err = 0#3 ∧ t.eflag = false ∧ t.ilen = 0#4) ∧
    ∃ t, runProgram ([.clr] ++ pushb (blockToBytes k).toList ++ [.keygen] ++ pushb (blockToBytes b).toList ++ [cmd])
        s = .next t ∧
      t.answers = s.answers ++ List.replicate 19 .ok ∧ t.dout = f Config.tables b k ∧ t.ov = true ∧
      t.kv = true ∧ t.key = k ∧ t.err = 0#3 ∧ t.eflag = false ∧ t.ilen = 0#4

/-! ## Steps, words and the port -/

/-- A step runs the decoded transaction: when the words of the trace decode to `i` with `rest` after it, a step is
`exec i` on the state with those words taken off. With no words left the engine holds its state (R144), and a trace
that ends inside a payload is refused. That the trace stands in the state is the model's choice, assumption log 2. -/
def Obligations.StepRunsDecodedTransaction : Prop :=
  (∀ (s : State) (i : Instr) (rest : List TWord), decode s.trace = .ok (i, rest) →
    step s = exec i { s with trace := rest }) ∧
  (∀ s : State, s.trace = [] → step s = .next s) ∧
  ∀ (s : State) (ws : List TWord), s.trace = 0x8300#16 :: ws → ws.length < 4 → step s = .refused .truncatedPayload

/-- R149 with R57: stepping through the words of a program is running its transactions one after the other. -/
def Obligations.StepsOfTraceRunProgram : Prop :=
  ∀ (is : List Instr) (s : State) (rest : List TWord), (∀ i ∈ is, i.wellFormed = true) →
    s.trace = encodeTrace is ++ rest →
    Host.Core.run Sys2Proof.core is.length s = runProgram is { s with trace := rest }

/-- The decoder reads back every transaction that the opcode map spells, with every operand at every value. -/
def Obligations.DecodeOfEncodeIsTransaction : Prop :=
  ∀ (i : Instr) (rest : List TWord), i.wellFormed = true → decode (encode i ++ rest) = .ok (i, rest)

/-- R61: the rows together cover all words: whatever the decoder reads is a term that the opcode map spells, and its
words are the words read, none dropped and none shared by two rows. -/
def Obligations.EncodeOfDecodeIsWords : Prop :=
  (∀ (ws rest : List TWord) (i : Instr), decode ws = .ok (i, rest) → i.wellFormed = true ∧ ws = encode i ++ rest) ∧
  ∀ w : TWord, w ≠ 0x8300#16 → ∀ rest, ∃ i, decode (w :: rest) = .ok (i, rest)

/-- R62 item 3, R57 and U6: the trace decoder gives back every program and refuses a trace with a malformed word in
it, or one that ends inside a payload, by the name of its first such place. -/
def Obligations.TraceDecoderReadsProgramsAndRefuses : Prop :=
  (∀ is : List Instr, (∀ i ∈ is, i.wellFormed = true ∧ i.malformedName = none) →
    decodeTrace (encodeTrace is) = .ok is ∧
    (∀ (i : Instr) (e : DecodeError) (rest : List TWord), i.wellFormed = true → i.malformedName = some e →
      decodeTrace (encodeTrace is ++ encode i ++ rest) = .error e) ∧
    ∀ ws : List TWord, ws.length < 4 → decodeTrace (encodeTrace is ++ 0x8300#16 :: ws) = .error .truncatedPayload)

/-- A few words written out from R56, R60 and R61 are read as the rows they belong to: ten of them as transactions,
and 0x8301, 0x0101 and 0xC001, which spell no transaction (R62 item 3), as the malformed rows. That the decoder names
the malformed row, for `exec` to refuse, is the model's reading, assumption log 4. -/
def Obligations.WordsOfEveryFormatDecode : Prop :=
  decode [0xC000#16] = .ok (.reset, []) ∧ decode [0x8001#16] = .ok (.keygen, []) ∧
  decode [0x8003#16] = .ok (.dec, []) ∧ decode [0x80FF#16] = .ok (.wrcmd 0xFF#8, []) ∧
  decode [0x8224#16] = .ok (.push 0x24#8, []) ∧
  decode [0x8300#16, 0x2448#16, 0x6F6C#16, 0x6120#16, 0x4445#16, 0x8002#16] =
    .ok (.wrdin 0x24486F6C61204445#64, [0x8002#16]) ∧
  decode [0x0F00#16] = .ok (.rdObyte 7#3, []) ∧ decode [0x1F00#16] = .ok (.rdSk 15#4, []) ∧
  decode [0x2000#16] = .ok (.rdN 0x20#6, []) ∧ decode [0x84AA#16] = .ok (.wrN 0x04#6 0xAA#8, []) ∧
  decode [0x8301#16] = .ok (.malformed83 0x01#8, []) ∧ decode [0x0101#16] = .ok (.malformedRead 0x01#6 0x01#8, []) ∧
  decode [0xC001#16] = .ok (.malformedZ true 0x00#6 0x01#8, [])

/-- R63: every row that spells a transaction is the row of the transaction it spells; a reset, a read, and a write of
`CMD`, `BYTE_IN` or `DIN` with data of the register's width has a row that spells exactly it; and a write of any other
register number has the row `WR n, b`, whose byte is the low byte of the data, all of which is ignored (R131). -/
def Obligations.RowsAreTransactions : Prop :=
  (∀ i : Instr, i.wellFormed = true → i.malformedName = none →
    ∃ t : Transaction, transactionOf i = some t ∧ rowOf t = .ok i) ∧
  (∀ t : Transaction,
    (∀ n v, t = .regWrite n v → n = 0x00#6 ∧ v.toNat < 256 ∨ n = 0x02#6 ∧ v.toNat < 256 ∨ n = 0x03#6) →
    ∃ i : Instr, rowOf t = .ok i ∧ transactionOf i = some t ∧ i.wellFormed = true ∧ i.malformedName = none) ∧
  ∀ (n : Regno) (v : Block), n.toNat = 0x01 ∨ 0x04 ≤ n.toNat → ∃ b : Byte,
    rowOf (.regWrite n v) = .ok (.wrN n b) ∧ (Instr.wrN n b).wellFormed = true ∧ ∀ j : Fin 8, b.getLsbD j = v.getLsbD j

/-- R39, R54, R131: a `RegRead` answers what the register map says of its number, of the register's width, and any
other number is a bad access. -/
def Obligations.RegReadFollowsRegisterMap : Prop :=
  ∀ (s : State) (n : Regno), ∃ t : State, transact (.regRead n) s = .next t ∧
    if n.toNat = 0x01 then t = answer (.value (.status (statusWord s))) s
    else if n.toNat = 0x04 then t = answer (.value (.block s.dout)) s
    else if n.toNat = 0x05 then t = answer (.value (.block s.key)) s
    else if 0x08 ≤ n.toNat ∧ n.toNat ≤ 0x0F then
      t = answer (.value (.byte (s.dout.extractLsb' ((0x0F - n.toNat) * 8) 8))) s
    else if h : 0x10 ≤ n.toNat ∧ n.toNat ≤ 0x1F then
      t = answer (.value (.subkey (s.sk[n.toNat - 0x10]'(by omega)))) s
    else t = raiseError .badAccess .read s

/-- R39, R54, R60, R131: a `RegWrite` of `CMD` runs the command that its byte is (or raises `IllegalCommand`), of
`BYTE_IN` offers its byte, of `DIN` its 64 bits, and of any other number is a bad access whatever the data. Data wider
than an 8-bit register is no write of it (R44) and is refused, assumption log 6. -/
def Obligations.RegWriteFollowsRegisterMap : Prop :=
  ∀ (s : State) (n : Regno) (v : Block),
    if n.toNat = 0x00 then
      if v = 0x01#64 then transact (.regWrite n v) s = exec .keygen s
      else if v = 0x02#64 then transact (.regWrite n v) s = exec .enc s
      else if v = 0x03#64 then transact (.regWrite n v) s = exec .dec s
      else if v = 0x04#64 then transact (.regWrite n v) s = exec .flush s
      else if v = 0x05#64 then transact (.regWrite n v) s = exec .clr s
      else if v.toNat < 256 then transact (.regWrite n v) s = exec (.wrcmd (v.extractLsb' 0 8)) s
      else transact (.regWrite n v) s = .refused .partialWrite
    else if n.toNat = 0x02 then
      if v.toNat < 256 then transact (.regWrite n v) s = exec (.push (v.extractLsb' 0 8)) s
      else transact (.regWrite n v) s = .refused .partialWrite
    else if n.toNat = 0x03 then transact (.regWrite n v) s = exec (.wrdin v) s
    else transact (.regWrite n v) s = exec (.wrN n (v.extractLsb' 0 8)) s ∧
      ∃ t, exec (.wrN n (v.extractLsb' 0 8)) s = .next t ∧ t.err = 5#3 ∧ t.answers = s.answers ++ [.error .badAccess]

/-! ## The function layer -/

/-- R66: bit `j` of subkey `i` is bit `i + j` of the key, the subkey is the shifted key modulo `2^48`; and R67: the
arithmetic shift gives the same. -/
def Obligations.SubkeyIsKeyWindow : Prop :=
  ∀ (k : Block) (i : Nat), i ≤ 15 →
    (subkey k i).toNat = k.toNat / 2 ^ i % 2 ^ 48 ∧
    (∀ j, j < 48 → (subkey k i).getLsbD j = k.getLsbD (i + j)) ∧
    (k.sshiftRight i).setWidth 48 = subkey k i

/-- R71: bit 63 of the key enters no subkey, so keys that differ only in it have one schedule and encrypt
identically; and no two keys that differ in another bit have one schedule (R70: bits 0..62 are all used). -/
def Obligations.OnlyKeyBitSixtyThreeIsUnused : Prop :=
  (∀ k : Block, schedule k = schedule (k ^^^ 0x8000000000000000#64)) ∧
  (∀ (c : Cfg) (b k : Block), encodeBlock c b k = encodeBlock c b (k ^^^ 0x8000000000000000#64)) ∧
  ∀ k k' : Block, schedule k = schedule k' → k' = k ∨ k' = k ^^^ 0x8000000000000000#64

/-- R75, R76: byte `i` of a sequence of exactly 8 bytes is bits `(7-i)*8+7 .. (7-i)*8` of its block and back; every
other length is a `LengthError`. -/
def Obligations.BytesAndBlocksAreBigEndian : Prop :=
  (∀ l : List Byte, l.length ≠ 8 → bytesToBlock l = .error .lengthError) ∧
  (∀ v : Vector Byte 8, ∃ b : Block, bytesToBlock v.toList = .ok b ∧
    ∀ i j : Fin 8, b.getLsbD ((7 - i.val) * 8 + j) = v[i].getLsbD j) ∧
  ∀ (b : Block) (i j : Fin 8), (blockToBytes b)[i].getLsbD j = b.getLsbD ((7 - i.val) * 8 + j)

/-- R77: `BytesToBlock` and `BlockToBytes` are exact inverses. -/
def Obligations.BytesAndBlocksAreInverse : Prop :=
  (∀ v : Vector Byte 8, ∃ b : Block, bytesToBlock v.toList = .ok b ∧ blockToBytes b = v) ∧
  ∀ b : Block, bytesToBlock (blockToBytes b).toList = .ok b

/-- R87, R88, R92, R93: the steps of F bit by bit, for every configuration, and F as their composition. -/
def Obligations.RoundFunctionStepsBitByBit : Prop :=
  ∀ c : Cfg,
    (∀ (h : Half) (j : Fin 48), (expand c h).getLsbD j = h.getLsbD c.eTable[j]) ∧
    (∀ (x : BitVec 48) (k : Subkey) (j : Nat), (mix x k).getLsbD j = (x.getLsbD j ^^ k.getLsbD j)) ∧
    (∀ (y : Half) (j : Fin 32), (permute c y).getLsbD j = y.getLsbD c.pTable[j]) ∧
    ∀ (h : Half) (k : Subkey), roundF c h k = permute c (substitute c (mix (expand c h) k))

/-- R89: the nibble of group `g` is bits `31-4g .. 28-4g` of the result and is the entry at the row made of the
group's outer bits and the column made of its inner bits. -/
def Obligations.SubstituteLooksUpEachGroup : Prop :=
  ∀ (c : Cfg) (m : BitVec 48) (g : Fin 8) (row : Fin 4) (col : Fin 16),
    row.val = 2 * (m.getLsbD (47 - 6 * g.val)).toNat + (m.getLsbD (42 - 6 * g.val)).toNat →
    col.val = (m.extractLsb' (43 - 6 * g.val) 4).toNat →
    (substitute c m).extractLsb' (28 - 4 * g.val) 4 = c.sbox[row][col]

/-- R105: the reverse pass from the exchanged result of the forward pass ends in the exchanged start, for every
configuration and every sixteen subkeys; and with the directions exchanged. -/
def Obligations.ReversePassUndoesForwardPass : Prop :=
  ∀ (c : Cfg) (sk : Schedule) (l r a b : Half) (forward : Bool),
    runRounds c l r sk forward = (a, b) → runRounds c b a sk (!forward) = (r, l)

/-- R112: decoding an encoded block with the same key, or under the same sixteen subkeys, gives the block. -/
def Obligations.DecodeOfEncodeIsBlock : Prop :=
  ∀ (c : Cfg) (b : Block), (∀ k : Block, decodeBlock c (encodeBlock c b k) k = b) ∧
    ∀ sk : Schedule, decodeSK c (encodeSK c b sk) sk = b

/-- R113: the converse, so that both are bijections; and for the keys whose sixteen subkeys are all equal they are
one function, its own inverse. -/
def Obligations.EncodeOfDecodeIsBlock : Prop :=
  (∀ (c : Cfg) (b k : Block), encodeBlock c (decodeBlock c b k) k = b) ∧
  (∀ (c : Cfg) (k : Block), Function.Bijective (fun b => encodeBlock c b k) ∧
    Function.Bijective (fun b => decodeBlock c b k)) ∧
  ∀ (c : Cfg) (b k : Block),
    k ∈ [0#64, 0x8000000000000000#64, 0x7FFFFFFFFFFFFFFF#64, 0xFFFFFFFFFFFFFFFF#64] →
    encodeBlock c b k = decodeBlock c b k ∧ encodeBlock c (encodeBlock c b k) k = b

/-- R115: flipping one bit of the block changes the result, whatever the tables. -/
def Obligations.OneFlippedBitChangesResult : Prop :=
  ∀ (c : Cfg) (b k : Block) (n : Nat), n < 64 → encodeBlock c (b ^^^ (1#64 <<< n)) k ≠ encodeBlock c b k

/-- R95, R116: with a substitution matrix whose entries are all equal the key does not matter, whatever the other two
tables are; under `REF` and under `TST` there are keys that give different results. -/
def Obligations.KeySensitivityDependsOnTables : Prop :=
  (∀ (c : Cfg) (x : BitVec 4), (∀ (r : Fin 4) (col : Fin 16), c.sbox[r][col] = x) →
    ∀ b k k' : Block, encodeBlock c b k = encodeBlock c b k') ∧
  (∃ k k' : Block, encodeBlock refCfg 0x24486F6C61204445#64 k ≠ encodeBlock refCfg 0x24486F6C61204445#64 k') ∧
  ∃ k k' : Block, encodeBlock tstCfg 0x24486F6C61204445#64 k ≠ encodeBlock tstCfg 0x24486F6C61204445#64 k'

/-- R96, U2: a raw record of tables is accepted exactly when it is well formed, and then every entry is kept. -/
def Obligations.RawTablesAcceptedIffWellFormed : Prop :=
  ∀ r : RawCfg, ((cfgOfRaw r).isSome = r.wellFormed) ∧
    ∀ c : Cfg, cfgOfRaw r = some c →
      c.eTable.toList.map Fin.val = r.eTable ∧ c.pTable.toList.map Fin.val = r.pTable ∧
      c.sbox.toList.map (fun row => row.toList.map BitVec.toNat) = r.sbox

/-! ## Several engines and the signal-level port -/

/-- R53: engines side by side do not affect one another: a step of one leaves the states of the others, and steps of
two different engines can be taken in either order with the same result. That they stand in a list is assumption log
11. -/
def Obligations.InstancesAreIndependent : Prop :=
  (∀ (k j : Nat) (ss ts : List State), stepInstance k ss = .next ts → j ≠ k → ts[j]? = ss[j]?) ∧
  ∀ (k j : Nat) (ss ts us : List State), j ≠ k → stepInstance k ss = .next ts → stepInstance j ts = .next us →
    ∃ vs : List State, stepInstance j ss = .next vs ∧ stepInstance k vs = .next us

/-- R146: a reset that arrives while a transaction is outstanding cancels it: the registers are the reset state's,
the transaction is not answered and no longer outstanding; and without a reset nothing takes effect before the
edge of the answer, where the transaction on the wires takes effect (which one that is when the wires change while a
request waits, and that a reset leaves the answers given, is the model's choice, assumption log 7 and 3). -/
def Obligations.ResetCancelsOutstandingTransaction : Prop :=
  ∀ (p : Pins) (q q' : PortState) (o : PortOut), clockEdge p q = .next (q', o) →
    (p.rst = true → SameRegisters q'.engine State.reset ∧ q'.engine.answers = q.engine.answers ∧
      q'.waiting = none ∧ o.ack = false) ∧
    (p.rst = false → o.ack = false → q'.engine = q.engine) ∧
    (o.ack = true → transact (pinTransaction p) q.engine = .next q'.engine ∧ q'.waiting = none)

/-- R150, R157: no wait depends on data. Two ports that agree on the outstanding wait, on how many requests were begun
and on `STATUS`, with wires that agree on `rst`, `req`, `rw`, `regno` and a command's opcode, agree again on all of
these after an edge, and on `ack` and `resp`, whatever keys, subkeys, operands, results and write data they hold. That
the timing may depend on `STATUS` and on an opcode, and on a count, is assumption log 7. -/
def Obligations.WaitDependsOnNoData : Prop :=
  ∀ (p p' : Pins) (q q' r r' : PortState) (o o' : PortOut),
    p'.rst = p.rst → p'.req = p.req → p'.rw = p.rw → p'.regno = p.regno → pinOpcode p' = pinOpcode p →
    q'.waiting = q.waiting → q'.begun = q.begun → statusWord q'.engine = statusWord q.engine →
    clockEdge p q = .next (r, o) → clockEdge p' q' = .next (r', o') →
    r'.waiting = r.waiting ∧ r'.begun = r.begun ∧ statusWord r'.engine = statusWord r.engine ∧
      o'.ack = o.ack ∧ o'.resp = o.resp

/-- R65, R157: a request held on the wires of an idle port, for any read or write that the port accepts, is answered
at the edge `T_LAT` cycles after it, at least one, with nothing changed before; at that edge its row takes effect and
its answer is on the wires, a read of `STATUS` on the low wires of `rdata` with `resp` 0. `T_LAT` is an opaque number
of this request. Which edge is counted as the first is the model's choice, assumption log 7. -/
def Obligations.HeldRequestIsAnsweredAfterLatency : Prop :=
  ∀ (q : PortState) (p : Pins) (i : Instr), p.rst = false → p.req = true → rowOf (pinTransaction p) = .ok i →
    q.waiting = none → 1 ≤ latency q p ∧
    ∃ (t : State) (a : Answer) (qs : Nat → PortState),
      exec i q.engine = .next t ∧ t.answers = q.engine.answers ++ [a] ∧
      (p.rw = false → p.regno = 0x01#6 → answerData a = 0#48 ++ statusWord q.engine ∧ answerResp a = 0#3) ∧
      qs 0 = q ∧
      (∀ n, n < latency q p → clockEdge p (qs n) = .next (qs (n + 1), noAnswer) ∧ (qs (n + 1)).engine = q.engine) ∧
      clockEdge p (qs (latency q p)) =
        .next ({ engine := t, waiting := none, begun := q.begun + 1 },
          { ack := true, rdata := answerData a, resp := answerResp a })
end

