-- ==== Sys2Proof/Laws/BitBlock.lean ====
section
/-! SUPPORT. The Bit-Block Adapter's functions (spec/41_bit_block_adapter.md R75, R76). -/

namespace Sys2Proof.Machine

@[simp] theorem blockByte_getLsbD (b : Block) (i j : Nat) :
    (blockByte b i).getLsbD j = (decide (j < 8) && b.getLsbD ((7 - i) * 8 + j)) := by
  simp [blockByte]

@[simp] theorem blockToBytes_getElem (b : Block) (i : Nat) (h : i < 8) : (blockToBytes b)[i] = blockByte b i := by
  simp [blockToBytes]

/-- The bytes of a vector of eight, one by one. -/
theorem toList_eight {α : Type} (v : Vector α 8) :
    v.toList = [v[0], v[1], v[2], v[3], v[4], v[5], v[6], v[7]] := by
  apply List.ext_getElem
  · simp
  · intro i h _
    have h8 : i < 8 := by simpa using h
    interval_cases i <;> simp

/-- Bit `j` of the byte at `i` of eight bytes joined, the first most significant. -/
theorem joined_getLsbD (b0 b1 b2 b3 b4 b5 b6 b7 : Byte) (i : Nat) :
    (b0 ++ b1 ++ b2 ++ b3 ++ b4 ++ b5 ++ b6 ++ b7 : Block).getLsbD i =
      if i < 8 then b7.getLsbD i else if i < 16 then b6.getLsbD (i - 8) else if i < 24 then b5.getLsbD (i - 16)
      else if i < 32 then b4.getLsbD (i - 24) else if i < 40 then b3.getLsbD (i - 32)
      else if i < 48 then b2.getLsbD (i - 40) else if i < 56 then b1.getLsbD (i - 48)
      else b0.getLsbD (i - 56) := by
  have h : (b0 ++ b1 ++ b2 ++ b3 ++ b4 ++ b5 ++ b6 ++ b7 : Block).getLsbD i =
    (b0 ++ b1 ++ b2 ++ b3 ++ b4 ++ b5 ++ b6 ++ b7 : BitVec (8 + 8 + 8 + 8 + 8 + 8 + 8 + 8)).getLsbD i := rfl
  rw [h]
  simp only [BitVec.getLsbD_append]
  split_ifs <;> first | omega | congr 1

/-- The bytes of a block joined are the block. -/
theorem joined_blockBytes (b : Block) :
    blockByte b 0 ++ blockByte b 1 ++ blockByte b 2 ++ blockByte b 3 ++ blockByte b 4 ++ blockByte b 5 ++
      blockByte b 6 ++ blockByte b 7 = b := by
  apply BitVec.eq_of_getLsbD_eq
  intro i hi
  rw [joined_getLsbD]
  simp only [blockByte_getLsbD]
  split_ifs <;> · rw [decide_eq_true (by omega), Bool.true_and]; congr 1; omega

/-- Eight bytes always make a block. -/
@[simp] theorem bytesToBlock_toList (v : Vector Byte 8) :
    bytesToBlock v.toList = .ok (v[0] ++ v[1] ++ v[2] ++ v[3] ++ v[4] ++ v[5] ++ v[6] ++ v[7]) := by
  rw [toList_eight]; rfl

/-- Any other number of bytes is a `LengthError`. -/
theorem bytesToBlock_error {l : List Byte} (h : l.length ≠ 8) : bytesToBlock l = .error .lengthError := by
  unfold bytesToBlock
  split
  · simp at h
  · rfl

end Sys2Proof.Machine
end

