-- ==== Sys2Proof/Laws/Feistel.lean ====
section
/-! SUPPORT. One round is undone by the same round on the exchanged pair (spec/43_feistel_engine.md R105), and how
`Split` and `Join` meet (spec/44_facade_commands.md R108, R109). -/

namespace Sys2Proof.Machine

/-- The heart of every Feistel network, whatever F is. -/
theorem feistelRound_undo (c : Cfg) (lr : Half × Half) (k : Subkey) :
    feistelRound c (feistelRound c lr k).swap k = lr.swap := by
  obtain ⟨l, r⟩ := lr
  simp [feistelRound]

@[simp] theorem subkeyOrder_not (sk : Schedule) (forward : Bool) :
    subkeyOrder sk (!forward) = (subkeyOrder sk forward).reverse := by
  cases forward <;> simp [subkeyOrder]

/-- Splitting what was joined gives the exchanged pair. -/
@[simp] theorem split_join (lr : Half × Half) : split (join lr) = lr.swap := by
  obtain ⟨l, r⟩ := lr
  simp only [split, join, Prod.swap, Prod.mk.injEq]
  constructor <;>
    · ext i hi
      rw [BitVec.getElem_extractLsb']
      exact (BitVec.getLsbD_append ..).trans (by simp [hi])

/-- Joining the exchanged halves of a block gives the block. -/
@[simp] theorem join_swap_split (b : Block) : join (split b).swap = b := by
  simp only [split, join, Prod.swap]
  ext i hi
  simp only [BitVec.getElem_append, BitVec.getElem_extractLsb']
  split <;> · rw [← BitVec.getLsbD_eq_getElem]; congr 1; omega

end Sys2Proof.Machine
end

