-- ==== Sys2Proof/Laws/KeySchedule.lean ====
section
/-! SUPPORT. The key schedule bit by bit (spec/40_key_schedule.md R66, R69). -/

namespace Sys2Proof.Machine

/-- Bit `j` of subkey `i` is bit `i + j` of the key. -/
@[simp] theorem subkey_getLsbD (k : Block) (i j : Nat) :
    (subkey k i).getLsbD j = (decide (j < 48) && k.getLsbD (i + j)) := by
  simp [subkey]

@[simp] theorem schedule_getElem (k : Block) (i : Nat) (h : i < 16) : (schedule k)[i] = subkey k i := by
  simp [schedule]

end Sys2Proof.Machine
end

