-- ==== Sys2Proof/Laws/State.lean ====
section
/-! SUPPORT. What each shared operation does to each field of the state, one lemma a field, so that no proof unfolds a
record update. -/

namespace Sys2Proof.Machine

@[simp] theorem consume_key (s : State) : (consume s).key = s.key := rfl
@[simp] theorem consume_kv (s : State) : (consume s).kv = s.kv := rfl
@[simp] theorem consume_sk (s : State) : (consume s).sk = s.sk := rfl
@[simp] theorem consume_ibuf (s : State) : (consume s).ibuf = Vector.replicate 8 0#8 := rfl
@[simp] theorem consume_ilen (s : State) : (consume s).ilen = 0#4 := rfl
@[simp] theorem consume_dout (s : State) : (consume s).dout = s.dout := rfl
@[simp] theorem consume_ov (s : State) : (consume s).ov = s.ov := rfl
@[simp] theorem consume_err (s : State) : (consume s).err = s.err := rfl
@[simp] theorem consume_eflag (s : State) : (consume s).eflag = s.eflag := rfl
@[simp] theorem consume_trace (s : State) : (consume s).trace = s.trace := rfl
@[simp] theorem consume_answers (s : State) : (consume s).answers = s.answers := rfl

@[simp] theorem answer_key (a : Answer) (s : State) : (answer a s).key = s.key := rfl
@[simp] theorem answer_kv (a : Answer) (s : State) : (answer a s).kv = s.kv := rfl
@[simp] theorem answer_sk (a : Answer) (s : State) : (answer a s).sk = s.sk := rfl
@[simp] theorem answer_ibuf (a : Answer) (s : State) : (answer a s).ibuf = s.ibuf := rfl
@[simp] theorem answer_ilen (a : Answer) (s : State) : (answer a s).ilen = s.ilen := rfl
@[simp] theorem answer_dout (a : Answer) (s : State) : (answer a s).dout = s.dout := rfl
@[simp] theorem answer_ov (a : Answer) (s : State) : (answer a s).ov = s.ov := rfl
@[simp] theorem answer_err (a : Answer) (s : State) : (answer a s).err = s.err := rfl
@[simp] theorem answer_eflag (a : Answer) (s : State) : (answer a s).eflag = s.eflag := rfl
@[simp] theorem answer_trace (a : Answer) (s : State) : (answer a s).trace = s.trace := rfl
@[simp] theorem answer_answers (a : Answer) (s : State) : (answer a s).answers = s.answers ++ [a] := rfl

@[simp] theorem pushByte_key (b : Byte) (s : State) : (pushByte b s).key = s.key := rfl
@[simp] theorem pushByte_kv (b : Byte) (s : State) : (pushByte b s).kv = s.kv := rfl
@[simp] theorem pushByte_sk (b : Byte) (s : State) : (pushByte b s).sk = s.sk := rfl
@[simp] theorem pushByte_ibuf (b : Byte) (s : State) :
    (pushByte b s).ibuf = if h : s.ilen.toNat < 8 then s.ibuf.set s.ilen.toNat b h else s.ibuf := rfl
@[simp] theorem pushByte_ilen (b : Byte) (s : State) : (pushByte b s).ilen = satIncr s.ilen := rfl
@[simp] theorem pushByte_dout (b : Byte) (s : State) : (pushByte b s).dout = s.dout := rfl
@[simp] theorem pushByte_ov (b : Byte) (s : State) : (pushByte b s).ov = s.ov := rfl
@[simp] theorem pushByte_err (b : Byte) (s : State) : (pushByte b s).err = s.err := rfl
@[simp] theorem pushByte_eflag (b : Byte) (s : State) : (pushByte b s).eflag = s.eflag := rfl
@[simp] theorem pushByte_trace (b : Byte) (s : State) : (pushByte b s).trace = s.trace := rfl
@[simp] theorem pushByte_answers (b : Byte) (s : State) : (pushByte b s).answers = s.answers := rfl

@[simp] theorem loadOperand_key (v : Block) (s : State) : (loadOperand v s).key = s.key := rfl
@[simp] theorem loadOperand_kv (v : Block) (s : State) : (loadOperand v s).kv = s.kv := rfl
@[simp] theorem loadOperand_sk (v : Block) (s : State) : (loadOperand v s).sk = s.sk := rfl
@[simp] theorem loadOperand_ibuf (v : Block) (s : State) : (loadOperand v s).ibuf = blockToBytes v := rfl
@[simp] theorem loadOperand_ilen (v : Block) (s : State) : (loadOperand v s).ilen = 8#4 := rfl
@[simp] theorem loadOperand_dout (v : Block) (s : State) : (loadOperand v s).dout = s.dout := rfl
@[simp] theorem loadOperand_ov (v : Block) (s : State) : (loadOperand v s).ov = s.ov := rfl
@[simp] theorem loadOperand_err (v : Block) (s : State) : (loadOperand v s).err = s.err := rfl
@[simp] theorem loadOperand_eflag (v : Block) (s : State) : (loadOperand v s).eflag = s.eflag := rfl
@[simp] theorem loadOperand_trace (v : Block) (s : State) : (loadOperand v s).trace = s.trace := rfl
@[simp] theorem loadOperand_answers (v : Block) (s : State) : (loadOperand v s).answers = s.answers := rfl

@[simp] theorem raiseError_key (e : EngineError) (w : Issuer) (s : State) : (raiseError e w s).key = s.key := rfl
@[simp] theorem raiseError_kv (e : EngineError) (w : Issuer) (s : State) : (raiseError e w s).kv = s.kv := rfl
@[simp] theorem raiseError_sk (e : EngineError) (w : Issuer) (s : State) : (raiseError e w s).sk = s.sk := rfl
@[simp] theorem raiseError_ibuf (e : EngineError) (w : Issuer) (s : State) :
    (raiseError e w s).ibuf = if e.consumes then Vector.replicate 8 0#8 else s.ibuf := rfl
@[simp] theorem raiseError_ilen (e : EngineError) (w : Issuer) (s : State) :
    (raiseError e w s).ilen = if e.consumes then 0#4 else s.ilen := rfl
@[simp] theorem raiseError_dout (e : EngineError) (w : Issuer) (s : State) : (raiseError e w s).dout = s.dout := rfl
@[simp] theorem raiseError_ov (e : EngineError) (w : Issuer) (s : State) :
    (raiseError e w s).ov = if w = .cipher then false else s.ov := rfl
@[simp] theorem raiseError_err (e : EngineError) (w : Issuer) (s : State) : (raiseError e w s).err = e.code := rfl
@[simp] theorem raiseError_eflag (e : EngineError) (w : Issuer) (s : State) : (raiseError e w s).eflag = true := rfl
@[simp] theorem raiseError_trace (e : EngineError) (w : Issuer) (s : State) :
    (raiseError e w s).trace = s.trace := rfl
@[simp] theorem raiseError_answers (e : EngineError) (w : Issuer) (s : State) :
    (raiseError e w s).answers = s.answers ++ [if w = .read then .readError e else .error e] := rfl

@[simp] theorem completeCommand_key (s : State) : (completeCommand s).key = s.key := rfl
@[simp] theorem completeCommand_kv (s : State) : (completeCommand s).kv = s.kv := rfl
@[simp] theorem completeCommand_sk (s : State) : (completeCommand s).sk = s.sk := rfl
@[simp] theorem completeCommand_ibuf (s : State) : (completeCommand s).ibuf = Vector.replicate 8 0#8 := rfl
@[simp] theorem completeCommand_ilen (s : State) : (completeCommand s).ilen = 0#4 := rfl
@[simp] theorem completeCommand_dout (s : State) : (completeCommand s).dout = s.dout := rfl
@[simp] theorem completeCommand_ov (s : State) : (completeCommand s).ov = s.ov := rfl
@[simp] theorem completeCommand_err (s : State) : (completeCommand s).err = 0#3 := rfl
@[simp] theorem completeCommand_eflag (s : State) : (completeCommand s).eflag = s.eflag := rfl
@[simp] theorem completeCommand_trace (s : State) : (completeCommand s).trace = s.trace := rfl
@[simp] theorem completeCommand_answers (s : State) : (completeCommand s).answers = s.answers ++ [.ok] := rfl

@[simp] theorem resetRegisters_key (s : State) : (resetRegisters s).key = 0#64 := rfl
@[simp] theorem resetRegisters_kv (s : State) : (resetRegisters s).kv = false := rfl
@[simp] theorem resetRegisters_sk (s : State) : (resetRegisters s).sk = Vector.replicate 16 0#48 := rfl
@[simp] theorem resetRegisters_ibuf (s : State) : (resetRegisters s).ibuf = Vector.replicate 8 0#8 := rfl
@[simp] theorem resetRegisters_ilen (s : State) : (resetRegisters s).ilen = 0#4 := rfl
@[simp] theorem resetRegisters_dout (s : State) : (resetRegisters s).dout = 0#64 := rfl
@[simp] theorem resetRegisters_ov (s : State) : (resetRegisters s).ov = false := rfl
@[simp] theorem resetRegisters_err (s : State) : (resetRegisters s).err = 0#3 := rfl
@[simp] theorem resetRegisters_eflag (s : State) : (resetRegisters s).eflag = false := rfl
@[simp] theorem resetRegisters_trace (s : State) : (resetRegisters s).trace = s.trace := rfl
@[simp] theorem resetRegisters_answers (s : State) : (resetRegisters s).answers = s.answers := rfl

@[simp] theorem loadKey_key (k : Block) (s : State) : (loadKey k s).key = k := rfl
@[simp] theorem loadKey_kv (k : Block) (s : State) : (loadKey k s).kv = true := rfl
@[simp] theorem loadKey_sk (k : Block) (s : State) : (loadKey k s).sk = schedule k := rfl
@[simp] theorem loadKey_ibuf (k : Block) (s : State) : (loadKey k s).ibuf = s.ibuf := rfl
@[simp] theorem loadKey_ilen (k : Block) (s : State) : (loadKey k s).ilen = s.ilen := rfl
@[simp] theorem loadKey_dout (k : Block) (s : State) : (loadKey k s).dout = s.dout := rfl
@[simp] theorem loadKey_ov (k : Block) (s : State) : (loadKey k s).ov = s.ov := rfl
@[simp] theorem loadKey_err (k : Block) (s : State) : (loadKey k s).err = s.err := rfl
@[simp] theorem loadKey_eflag (k : Block) (s : State) : (loadKey k s).eflag = s.eflag := rfl
@[simp] theorem loadKey_trace (k : Block) (s : State) : (loadKey k s).trace = s.trace := rfl
@[simp] theorem loadKey_answers (k : Block) (s : State) : (loadKey k s).answers = s.answers := rfl

@[simp] theorem State.withFetchWord_key (s : State) (n w : Nat) : (s.withFetchWord n w).key = s.key := rfl
@[simp] theorem State.withFetchWord_kv (s : State) (n w : Nat) : (s.withFetchWord n w).kv = s.kv := rfl
@[simp] theorem State.withFetchWord_sk (s : State) (n w : Nat) : (s.withFetchWord n w).sk = s.sk := rfl
@[simp] theorem State.withFetchWord_ibuf (s : State) (n w : Nat) : (s.withFetchWord n w).ibuf = s.ibuf := rfl
@[simp] theorem State.withFetchWord_ilen (s : State) (n w : Nat) : (s.withFetchWord n w).ilen = s.ilen := rfl
@[simp] theorem State.withFetchWord_dout (s : State) (n w : Nat) : (s.withFetchWord n w).dout = s.dout := rfl
@[simp] theorem State.withFetchWord_ov (s : State) (n w : Nat) : (s.withFetchWord n w).ov = s.ov := rfl
@[simp] theorem State.withFetchWord_err (s : State) (n w : Nat) : (s.withFetchWord n w).err = s.err := rfl
@[simp] theorem State.withFetchWord_eflag (s : State) (n w : Nat) : (s.withFetchWord n w).eflag = s.eflag := rfl
@[simp] theorem State.withFetchWord_trace (s : State) (n w : Nat) :
    (s.withFetchWord n w).trace = tableWords n w ++ s.trace := rfl
@[simp] theorem State.withFetchWord_answers (s : State) (n w : Nat) : (s.withFetchWord n w).answers = s.answers := rfl

end Sys2Proof.Machine
end

