-- ==== Sys2Proof/Laws/Ops.lean ====
section
/-! SUPPORT. One lemma for each shared operation that says everything it can do; the meanings are cited through these
and not unfolded. -/

namespace Sys2Proof.Machine

/-- The `STATUS` view holds its five fields whole, and nothing else (spec/10_state.md R27). -/
theorem statusWord_eq_iff (s t : State) : statusWord s = statusWord t ↔
    s.ilen = t.ilen ∧ s.err = t.err ∧ s.eflag = t.eflag ∧ s.ov = t.ov ∧ s.kv = t.kv := by
  have field : ∀ (n : BitVec 4) (c : BitVec 3) (e o k : Bool) (w : BitVec 16),
      w = 0#4 ++ n ++ 0#1 ++ c ++ 0#1 ++ BitVec.ofBool e ++ BitVec.ofBool o ++ BitVec.ofBool k →
      w.extractLsb' 8 4 = n ∧ w.extractLsb' 4 3 = c ∧ w.getLsbD 2 = e ∧ w.getLsbD 1 = o ∧ w.getLsbD 0 = k := by
    rintro n c e o k _ rfl
    revert n c e o k
    decide +kernel
  constructor
  · intro h
    obtain ⟨a1, a2, a3, a4, a5⟩ := field s.ilen s.err s.eflag s.ov s.kv _ rfl
    obtain ⟨b1, b2, b3, b4, b5⟩ := field t.ilen t.err t.eflag t.ov t.kv _ h
    exact ⟨a1.symm.trans b1, a2.symm.trans b2, a3.symm.trans b3, a4.symm.trans b4, a5.symm.trans b5⟩
  · rintro ⟨h1, h2, h3, h4, h5⟩
    simp only [statusWord, h1, h2, h3, h4, h5]

/-- The saturating count (spec/10_state.md R22). -/
theorem satIncr_toNat (n : BitVec 4) : (satIncr n).toNat = min (n.toNat + 1) 15 := by
  revert n; decide

/-- The operand is there exactly when eight bytes were offered (spec/41_bit_block_adapter.md R79). -/
theorem operand_cases (s : State) :
    (s.ilen = 8#4 ∧ operand s = .ok (s.ibuf[0] ++ s.ibuf[1] ++ s.ibuf[2] ++ s.ibuf[3] ++ s.ibuf[4] ++ s.ibuf[5] ++
      s.ibuf[6] ++ s.ibuf[7])) ∨
    (s.ilen ≠ 8#4 ∧ operand s = .error .lengthError) := by
  by_cases h : s.ilen = 8#4
  · exact .inl ⟨h, by simp [operand, h]⟩
  · exact .inr ⟨h, by simp [operand, h]⟩

/-- All that `KEYGEN` can do (spec/40_key_schedule.md R73). -/
theorem keygenCommand_cases (s : State) :
    (s.kv = true ∧ keygenCommand s = raiseError .keyLockedError .write s) ∨
    (s.kv = false ∧ s.ilen ≠ 8#4 ∧ keygenCommand s = raiseError .lengthError .write s) ∨
    (s.kv = false ∧ s.ilen = 8#4 ∧ ∃ k, operand s = .ok k ∧ keygenCommand s = completeCommand (loadKey k s)) := by
  cases hk : s.kv
  · obtain ⟨hl, ho⟩ | ⟨hl, ho⟩ := operand_cases s
    · exact .inr (.inr ⟨rfl, hl, _, ho, by simp [keygenCommand, hk, ho]⟩)
    · exact .inr (.inl ⟨rfl, hl, by simp [keygenCommand, hk, ho]⟩)
  · exact .inl ⟨rfl, by simp [keygenCommand, hk]⟩

/-- All that `ENC` and `DEC` can do (spec/44_facade_commands.md R120, R121). -/
theorem cipherCommand_cases (f : Block → Schedule → Block) (s : State) :
    (s.kv = false ∧ cipherCommand f s = raiseError .noKeyError .cipher s) ∨
    (s.kv = true ∧ s.ilen ≠ 8#4 ∧ cipherCommand f s = raiseError .lengthError .cipher s) ∨
    (s.kv = true ∧ s.ilen = 8#4 ∧ ∃ b, operand s = .ok b ∧
      cipherCommand f s = completeCommand { s with dout := f b s.sk, ov := true }) := by
  cases hk : s.kv
  · exact .inl ⟨rfl, by simp [cipherCommand, hk]⟩
  · obtain ⟨hl, ho⟩ | ⟨hl, ho⟩ := operand_cases s
    · exact .inr (.inr ⟨rfl, hl, _, ho, by simp [cipherCommand, hk, ho]⟩)
    · exact .inr (.inl ⟨rfl, hl, by simp [cipherCommand, hk, ho]⟩)

/-- A command opcode is one of the five or illegal (spec/30_encoding.md R60). -/
theorem runCommand_cases (cfg : Cfg) (c : Byte) (s : State) :
    (c = 0x01#8 ∧ runCommand cfg c s = keygenCommand s) ∨
    (c = 0x02#8 ∧ runCommand cfg c s = cipherCommand (encodeSK cfg) s) ∨
    (c = 0x03#8 ∧ runCommand cfg c s = cipherCommand (decodeSK cfg) s) ∨
    (c = 0x04#8 ∧ runCommand cfg c s = flushCommand s) ∨
    (c = 0x05#8 ∧ runCommand cfg c s = clearCommand s) ∨
    (isCommandOpcode c = false ∧ runCommand cfg c s = raiseError .illegalCommand .write s) := by
  unfold runCommand isCommandOpcode
  split_ifs <;> simp_all

/-- A read by number gives a value, or is a bad access (spec/60_exceptions.md R131). -/
theorem readNumber_cases (n : Regno) (s : State) :
    (∃ r v, regOfNumber n = some r ∧ readReg s r = some v ∧ readNumber n s = answer (.value v) s) ∨
    ((regOfNumber n).bind (readReg s) = none ∧ readNumber n s = raiseError .badAccess .read s) := by
  cases h : (regOfNumber n).bind (readReg s) with
  | some v =>
    obtain ⟨r, hr, hv⟩ := Option.bind_eq_some_iff.mp h
    exact .inl ⟨r, v, hr, hv, by simp [readNumber, h]⟩
  | none => exact .inr ⟨rfl, by simp [readNumber, h]⟩

/-- All that a byte written to a register number can do (spec/60_exceptions.md R131). -/
theorem writeByte_cases (cfg : Cfg) (n : Regno) (b : Byte) (s : State) :
    (n = 0x00#6 ∧ writeByte cfg n b s = some (runCommand cfg b s)) ∨
    (n = 0x02#6 ∧ writeByte cfg n b s = some (answer .ok (pushByte b s))) ∨
    (n = 0x03#6 ∧ writeByte cfg n b s = none) ∨
    (isBadWrite n = true ∧ writeByte cfg n b s = some (raiseError .badAccess .write s)) := by
  have key : ∀ n : Regno, (n = 0x00#6 ∧ regOfNumber n = some .cmd) ∨ (n = 0x02#6 ∧ regOfNumber n = some .byteIn) ∨
      (n = 0x03#6 ∧ regOfNumber n = some .din) ∨ (isBadWrite n = true ∧ regOfNumber n ≠ some .cmd ∧
        regOfNumber n ≠ some .byteIn ∧ regOfNumber n ≠ some .din) := by decide
  obtain ⟨h, hr⟩ | ⟨h, hr⟩ | ⟨h, hr⟩ | ⟨h, h1, h2, h3⟩ := key n
  · exact .inl ⟨h, by simp [writeByte, hr]⟩
  · exact .inr (.inl ⟨h, by simp [writeByte, hr]⟩)
  · exact .inr (.inr (.inl ⟨h, by simp [writeByte, hr]⟩))
  · refine .inr (.inr (.inr ⟨h, ?_⟩))
    unfold writeByte
    split <;> simp_all

/-- The register map and R131's list of bad reads agree. -/
theorem isBadRead_iff (n : Regno) (s : State) : isBadRead n = true ↔ (regOfNumber n).bind (readReg s) = none := by
  have key : ∀ n : Regno, isBadRead n = true ↔ (regOfNumber n = none ∨ regOfNumber n = some .cmd ∨
      regOfNumber n = some .byteIn ∨ regOfNumber n = some .din) := by decide
  rw [key]
  cases h : regOfNumber n with
  | none => simp
  | some r => cases r <;> simp [readReg]

end Sys2Proof.Machine
end

