-- ==== Sys2Proof/Laws/Words.lean ====
section
/-! SUPPORT. What the decoder can answer, said once: the shape of what it reads, and the opcode map on the fields of a
word. -/

namespace Sys2Proof

@[simp] theorem decode_nil : decode [] = .error .endOfTrace := rfl

/-- A word other than 0x8300 is a transaction of its own. -/
theorem decode_word {w : TWord} (h : w ≠ 0x8300#16) (rest : List TWord) :
    decode (w :: rest) = .ok (decodeWord w, rest) := by
  simp [decode, h]

/-- The word 0x8300 takes four payload words. -/
theorem decode_wrdin (a b c d : TWord) (rest : List TWord) :
    decode (0x8300#16 :: a :: b :: c :: d :: rest) = .ok (.wrdin (payloadOf a b c d), rest) := rfl

/-- The word 0x8300 with fewer than four words after it is no transaction. -/
theorem decode_truncated {ws : List TWord} (h : ws.length < 4) :
    decode (0x8300#16 :: ws) = .error .truncatedPayload := by
  match ws, h with
  | [], _ => rfl
  | [_], _ => rfl
  | [_, _], _ => rfl
  | [_, _, _], _ => rfl
  | _ :: _ :: _ :: _ :: _, h => simp only [List.length_cons] at h; omega

/-- All that `decode` can answer. -/
theorem decode_cases (ws : List TWord) :
    (ws = [] ∧ decode ws = .error .endOfTrace) ∨
    (∃ w rest, ws = w :: rest ∧ w ≠ 0x8300#16 ∧ decode ws = .ok (decodeWord w, rest)) ∨
    (∃ a b c d rest, ws = 0x8300#16 :: a :: b :: c :: d :: rest ∧
      decode ws = .ok (.wrdin (payloadOf a b c d), rest)) ∨
    (∃ rest, ws = 0x8300#16 :: rest ∧ rest.length < 4 ∧ decode ws = .error .truncatedPayload) := by
  cases ws with
  | nil => exact .inl ⟨rfl, rfl⟩
  | cons w rest =>
    by_cases h : w = 0x8300#16
    · subst h
      match rest with
      | a :: b :: c :: d :: r => exact .inr (.inr (.inl ⟨a, b, c, d, r, rfl, rfl⟩))
      | [] => exact .inr (.inr (.inr ⟨[], rfl, by simp, rfl⟩))
      | [x] => exact .inr (.inr (.inr ⟨[x], rfl, by simp, rfl⟩))
      | [x, y] => exact .inr (.inr (.inr ⟨[x, y], rfl, by simp, rfl⟩))
      | [x, y, z] => exact .inr (.inr (.inr ⟨[x, y, z], rfl, by simp, rfl⟩))
    · exact .inr (.inl ⟨w, rest, rfl, h, decode_word h rest⟩)

/-- Bit `i` of a payload. -/
theorem payloadOf_getLsbD (a b c d : TWord) (i : Nat) :
    (payloadOf a b c d).getLsbD i =
      if i < 16 then d.getLsbD i else if i < 32 then c.getLsbD (i - 16) else if i < 48 then b.getLsbD (i - 32)
      else a.getLsbD (i - 48) := by
  have h : (payloadOf a b c d).getLsbD i = (a ++ b ++ c ++ d : BitVec (16 + 16 + 16 + 16)).getLsbD i := rfl
  rw [h]
  simp only [BitVec.getLsbD_append]
  split_ifs <;> first | omega | congr 1

/-- The payload words of a value are read back as that value. -/
theorem decode_payloadWords (v : Block) (rest : List TWord) :
    decode (0x8300#16 :: payloadWords v ++ rest) = .ok (.wrdin v, rest) := by
  have h : payloadOf (v.extractLsb' 48 16) (v.extractLsb' 32 16) (v.extractLsb' 16 16) (v.extractLsb' 0 16) = v := by
    apply BitVec.eq_of_getLsbD_eq
    intro i hi
    simp only [payloadOf_getLsbD, BitVec.getLsbD_extractLsb']
    split_ifs with h1 h2 h3
    · simp [h1]
    · rw [decide_eq_true (by omega), Bool.true_and]; congr 1; omega
    · rw [decide_eq_true (by omega), Bool.true_and]; congr 1; omega
    · rw [decide_eq_true (by omega), Bool.true_and]; congr 1; omega
  exact congrArg (fun x => Except.ok (Instr.wrdin x, rest)) h

/-- Four words are the payload words of the value they spell. -/
theorem payloadWords_payloadOf (a b c d : TWord) : payloadWords (payloadOf a b c d) = [a, b, c, d] := by
  simp only [payloadWords, List.cons.injEq, and_true]
  refine ⟨?_, ?_, ?_, ?_⟩ <;>
  · apply BitVec.eq_of_getLsbD_eq
    intro i hi
    rw [BitVec.getLsbD_extractLsb', decide_eq_true hi, Bool.true_and, payloadOf_getLsbD]
    split_ifs <;> first | omega | (congr 1; omega)

/-- The word of four fields (spec/30_encoding.md R56). -/
def wordOf (rw z : Bool) (n : Regno) (d : Byte) : TWord :=
  (BitVec.ofBool rw ++ BitVec.ofBool z ++ n ++ d : BitVec (1 + 1 + 6 + 8))

/-- Every word is that of its fields. -/
theorem wordOf_fields (w : TWord) : wordOf (TWord.rw w) (TWord.z w) (TWord.regno w) (TWord.d8 w) = w := by
  unfold wordOf TWord.d8 TWord.regno TWord.z TWord.rw
  ext i hi
  simp only [BitVec.getElem_append, BitVec.getElem_extractLsb', BitVec.getElem_ofBool]
  repeat' split
  all_goals rw [← BitVec.getLsbD_eq_getElem]; congr 1; omega

theorem wordOf_getLsbD (rw z : Bool) (n : Regno) (d : Byte) (i : Nat) :
    (wordOf rw z n d).getLsbD i =
      if i < 8 then d.getLsbD i else if i < 14 then n.getLsbD (i - 8) else if i < 15 then z
      else decide (i = 15) && rw := by
  simp only [wordOf, BitVec.getLsbD_append, BitVec.getLsbD_ofBool]
  split_ifs <;> first | omega | simp_all
  congr 2
  apply propext; omega

@[simp] theorem rw_wordOf (rw z : Bool) (n : Regno) (d : Byte) : TWord.rw (wordOf rw z n d) = rw := by
  unfold TWord.rw; rw [wordOf_getLsbD]; simp

@[simp] theorem z_wordOf (rw z : Bool) (n : Regno) (d : Byte) : TWord.z (wordOf rw z n d) = z := by
  unfold TWord.z; rw [wordOf_getLsbD]; simp

@[simp] theorem regno_wordOf (rw z : Bool) (n : Regno) (d : Byte) : TWord.regno (wordOf rw z n d) = n := by
  ext i hi
  have h1 : ¬ 8 + i < 8 := by omega
  have h2 : 8 + i < 14 := by omega
  simp [TWord.regno, wordOf_getLsbD, h1, h2]
  simp [BitVec.getLsbD_eq_getElem hi]

@[simp] theorem d8_wordOf (rw z : Bool) (n : Regno) (d : Byte) : TWord.d8 (wordOf rw z n d) = d := by
  ext i hi
  simp [TWord.d8, wordOf_getLsbD, hi]

/-- Words are equal when their fields are. -/
theorem wordOf_inj {rw z rw' z' : Bool} {n n' : Regno} {d d' : Byte} :
    wordOf rw z n d = wordOf rw' z' n' d' ↔ rw = rw' ∧ z = z' ∧ n = n' ∧ d = d' := by
  constructor
  · intro h
    exact ⟨by simpa using congrArg TWord.rw h, by simpa using congrArg TWord.z h,
      by simpa using congrArg TWord.regno h, by simpa using congrArg TWord.d8 h⟩
  · rintro ⟨rfl, rfl, rfl, rfl⟩; rfl

/-- Masking a word masks its fields. -/
theorem wordOf_and (rw z rw' z' : Bool) (n n' : Regno) (d d' : Byte) :
    wordOf rw z n d &&& wordOf rw' z' n' d' = wordOf (rw && rw') (z && z') (n &&& n') (d &&& d') := by
  apply BitVec.eq_of_getLsbD_eq
  intro i hi
  rw [BitVec.getLsbD_and]
  simp only [wordOf_getLsbD, BitVec.getLsbD_and]
  split_ifs <;> try rfl
  by_cases h : i = 15 <;> simp [h]

/-- The decoder on a word given by its fields: what the masks of R61 say of them. -/
theorem decodeWord_wordOf (rw z : Bool) (n : Regno) (d : Byte) :
    decodeWord (wordOf rw z n d) =
      if z then (if rw = true ∧ n = 0#6 ∧ d = 0#8 then .reset else .malformedZ rw n d)
      else if rw then
        if n = 0x00#6 then
          if d = 1#8 then .keygen else if d = 2#8 then .enc else if d = 3#8 then .dec else if d = 4#8 then .flush
          else if d = 5#8 then .clr else .wrcmd d
        else if n = 0x02#6 then .push d
        else if n = 0x03#6 then .malformed83 d
        else .wrN n d
      else if d ≠ 0#8 then .malformedRead n d
      else if n = 0x01#6 then .rdStatus
      else if n = 0x04#6 then .rdDout
      else if n = 0x05#6 then .rdKey
      else if n &&& 0b111000#6 = 0b001000#6 then .rdObyte (n.extractLsb' 0 3)
      else if n &&& 0b110000#6 = 0b010000#6 then .rdSk (n.extractLsb' 0 4)
      else .rdN n := by
  have m1 : 0xFF00#16 = wordOf true true 0b111111#6 0x00#8 := by decide
  have m2 : 0xF8FF#16 = wordOf true true 0b111000#6 0xFF#8 := by decide
  have m3 : 0xF0FF#16 = wordOf true true 0b110000#6 0xFF#8 := by decide
  have m4 : 0xC0FF#16 = wordOf true true 0b000000#6 0xFF#8 := by decide
  have m5 : 0xC000#16 = wordOf true true 0b000000#6 0x00#8 := by decide
  have p1 : 0x8001#16 = wordOf true false 0#6 1#8 := by decide
  have p2 : 0x8002#16 = wordOf true false 0#6 2#8 := by decide
  have p3 : 0x8003#16 = wordOf true false 0#6 3#8 := by decide
  have p4 : 0x8004#16 = wordOf true false 0#6 4#8 := by decide
  have p5 : 0x8005#16 = wordOf true false 0#6 5#8 := by decide
  have p6 : 0x8000#16 = wordOf true false 0#6 0#8 := by decide
  have p7 : 0x8200#16 = wordOf true false 2#6 0#8 := by decide
  have p8 : 0x8300#16 = wordOf true false 3#6 0#8 := by decide
  have p9 : 0x0100#16 = wordOf false false 1#6 0#8 := by decide
  have p10 : 0x0400#16 = wordOf false false 4#6 0#8 := by decide
  have p11 : 0x0500#16 = wordOf false false 5#6 0#8 := by decide
  have p12 : 0x0800#16 = wordOf false false 0b001000#6 0#8 := by decide
  have p13 : 0x1000#16 = wordOf false false 0b010000#6 0#8 := by decide
  have p14 : 0x0000#16 = wordOf false false 0#6 0#8 := by decide
  have o1 : n &&& 0b111111#6 = n := by revert n; decide
  have o2 : d &&& 0xFF#8 = d := by revert d; decide
  have e1 : (wordOf rw z n d).extractLsb' 8 3 = n.extractLsb' 0 3 := by
    apply BitVec.eq_of_getLsbD_eq; intro i hi
    have h1 : ¬ 8 + i < 8 := by omega
    have h2 : 8 + i < 14 := by omega
    simp [wordOf_getLsbD, h1, h2]
  have e2 : (wordOf rw z n d).extractLsb' 8 4 = n.extractLsb' 0 4 := by
    apply BitVec.eq_of_getLsbD_eq; intro i hi
    have h1 : ¬ 8 + i < 8 := by omega
    have h2 : 8 + i < 14 := by omega
    simp [wordOf_getLsbD, h1, h2]
  unfold decodeWord
  rw [m1, m2, m3, m4, m5, p1, p2, p3, p4, p5, p6, p7, p8, p9, p10, p11, p12, p13, p14]
  simp only [wordOf_and, wordOf_inj, o1, o2, e1, e2, rw_wordOf, regno_wordOf, d8_wordOf, Bool.and_true]
  cases rw <;> cases z <;> simp
  · by_cases hd : d = 0#8 <;> simp [hd]
  · by_cases hn : n = 0#6 <;> simp [hn]
end Sys2Proof
end

