-- ==== Sys2Proof/Laws/PerInstr.lean ====
section
/-! SUPPORT. Per-instruction laws, one lemma for each constructor. Family `Layout`: the words of a transaction have the
fields of spec/30_encoding.md R56 and R63, and a payload stands after `WRDIN` alone (R57). -/

namespace Sys2Proof.Laws.Layout

/-- The fields `rw`, `z`, `regno`, `d8` of a transaction's word (R56; register numbers of spec/20_memory.md R39). -/
def fields : Instr → Bool × Bool × Regno × Byte
  | .reset => (true, true, 0x00#6, 0x00#8)
  | .keygen => (true, false, 0x00#6, 0x01#8)
  | .enc => (true, false, 0x00#6, 0x02#8)
  | .dec => (true, false, 0x00#6, 0x03#8)
  | .flush => (true, false, 0x00#6, 0x04#8)
  | .clr => (true, false, 0x00#6, 0x05#8)
  | .wrcmd c => (true, false, 0x00#6, c)
  | .push b => (true, false, 0x02#6, b)
  | .wrdin _ => (true, false, 0x03#6, 0x00#8)
  | .malformed83 x => (true, false, 0x03#6, x)
  | .rdStatus => (false, false, 0x01#6, 0x00#8)
  | .rdDout => (false, false, 0x04#6, 0x00#8)
  | .rdKey => (false, false, 0x05#6, 0x00#8)
  | .rdObyte i => (false, false, 0b001#3 ++ i, 0x00#8)
  | .rdSk i => (false, false, 0b01#2 ++ i, 0x00#8)
  | .rdN n => (false, false, n, 0x00#8)
  | .malformedRead n d => (false, false, n, d)
  | .wrN n b => (true, false, n, b)
  | .malformedZ rw n d => (rw, true, n, d)

/-- How many payload words follow (R57). -/
def payloadLength : Instr → Nat
  | .wrdin _ => 4
  | _ => 0

/-- The words of `i` are one word of its fields and then its payload. -/
def Statement (i : Instr) : Prop :=
  ∃ payload : List TWord, payload.length = payloadLength i ∧
    encode i = wordOf (fields i).1 (fields i).2.1 (fields i).2.2.1 (fields i).2.2.2 :: payload

theorem reset : Statement .reset := ⟨[], rfl, by decide⟩

theorem keygen : Statement .keygen := ⟨[], rfl, by decide⟩

theorem enc : Statement .enc := ⟨[], rfl, by decide⟩

theorem dec : Statement .dec := ⟨[], rfl, by decide⟩

theorem flush : Statement .flush := ⟨[], rfl, by decide⟩

theorem clr : Statement .clr := ⟨[], rfl, by decide⟩

theorem wrcmd (c : Byte) : Statement (.wrcmd c) := ⟨[], rfl, by revert c; decide⟩

theorem push (b : Byte) : Statement (.push b) := ⟨[], rfl, by revert b; decide⟩

theorem wrdin (v : Block) : Statement (.wrdin v) := by
  refine ⟨(encode (.wrdin v)).tail, rfl, ?_⟩
  rw [show wordOf (fields (.wrdin v)).1 (fields (.wrdin v)).2.1 (fields (.wrdin v)).2.2.1 (fields (.wrdin v)).2.2.2 =
    0x8300#16 by change wordOf true false 0x03#6 0x00#8 = _; decide]
  rfl

theorem malformed83 (x : Byte) : Statement (.malformed83 x) := ⟨[], rfl, by revert x; decide⟩

theorem rdStatus : Statement .rdStatus := ⟨[], rfl, by decide⟩

theorem rdDout : Statement .rdDout := ⟨[], rfl, by decide⟩

theorem rdKey : Statement .rdKey := ⟨[], rfl, by decide⟩

theorem rdObyte (i : BitVec 3) : Statement (.rdObyte i) := ⟨[], rfl, by revert i; decide⟩

theorem rdSk (i : BitVec 4) : Statement (.rdSk i) := ⟨[], rfl, by revert i; decide⟩

theorem rdN (n : Regno) : Statement (.rdN n) := ⟨[], rfl, by revert n; decide⟩

theorem malformedRead (n : Regno) (d : Byte) : Statement (.malformedRead n d) := by
  refine ⟨[], rfl, congrArg (· :: []) ?_⟩
  change _ = wordOf false false n d
  unfold wordOf
  rw [show (BitVec.ofBool false ++ BitVec.ofBool false : BitVec (1 + 1)) = 0b00#2 from rfl]

theorem wrN (n : Regno) (b : Byte) : Statement (.wrN n b) := by
  refine ⟨[], rfl, congrArg (· :: []) ?_⟩
  change _ = wordOf true false n b
  unfold wordOf
  rw [show (BitVec.ofBool true ++ BitVec.ofBool false : BitVec (1 + 1)) = 0b10#2 from rfl]

theorem malformedZ (rw : Bool) (n : Regno) (d : Byte) : Statement (.malformedZ rw n d) := ⟨[], rfl, rfl⟩

end Sys2Proof.Laws.Layout
end

