-- ==== Sys2Proof/Laws/Port.lean ====
section
/-! SUPPORT. Programs of transactions one after the other (spec/70_reset_and_hazards.md R149), and what a command does
once its operand and its key are there. -/

namespace Sys2Proof.Machine

/-- A program after another runs from what the other left. -/
theorem runProgram_append (is js : List Instr) (s : State) :
    runProgram (is ++ js) s = match runProgram is s with
      | .next t => runProgram js t
      | .fault r => .fault r
      | .refused r => .refused r := by
  induction is generalizing s with
  | nil => rfl
  | cons i is ih =>
    simp only [List.cons_append, runProgram]
    cases exec i s with
    | next t => exact ih t
    | fault r => rfl
    | refused r => rfl

/-- A run of operand bytes offers them one after the other. -/
theorem runProgram_push (bs : List Byte) (s : State) :
    runProgram (bs.map .push) s = .next (bs.foldl (fun s b => answer .ok (pushByte b s)) s) := by
  induction bs generalizing s with
  | nil => rfl
  | cons b bs ih => exact ih _

/-- Eight bytes offered to an empty buffer are the buffer (spec/41_bit_block_adapter.md R81). -/
theorem runProgram_push_block (b : Block) (s : State) (hl : s.ilen = 0#4) (hb : s.ibuf = Vector.replicate 8 0#8) :
    runProgram ((blockToBytes b).toList.map .push) s =
      .next { s with ibuf := blockToBytes b, ilen := 8#4, answers := s.answers ++ List.replicate 8 .ok } := by
  have fill : ∀ b0 b1 b2 b3 b4 b5 b6 b7 : Byte,
      [b0, b1, b2, b3, b4, b5, b6, b7].foldl (fun s b => answer .ok (pushByte b s)) s =
        { s with
          ibuf := #v[b0, b1, b2, b3, b4, b5, b6, b7], ilen := 8#4, answers := s.answers ++ List.replicate 8 .ok } := by
    intro b0 b1 b2 b3 b4 b5 b6 b7
    obtain ⟨key, kv, sk, ibuf, ilen, dout, ov, err, eflag, trace, answers⟩ := s
    subst hl hb
    simp [pushByte, satIncr, answer, List.replicate]
    rfl
  rw [runProgram_push, toList_eight, fill]
  congr 2

/-- The operand of a buffer that holds the bytes of a block (spec/41_bit_block_adapter.md R79). -/
theorem operand_of_bytes {s : State} {b : Block} (hl : s.ilen = 8#4) (hb : s.ibuf = blockToBytes b) :
    operand s = .ok b := by
  simp only [operand, hl, hb, if_true, bytesToBlock_toList, blockToBytes_getElem, joined_blockBytes]

/-- `KEYGEN` without a key loads a whole operand (spec/40_key_schedule.md R73). -/
theorem keygenCommand_of_bytes {s : State} {k : Block} (hk : s.kv = false) (hl : s.ilen = 8#4)
    (hb : s.ibuf = blockToBytes k) : keygenCommand s = completeCommand (loadKey k s) := by
  simp [keygenCommand, hk, operand_of_bytes hl hb]

/-- `ENC` or `DEC` with a key and a whole operand (spec/44_facade_commands.md R120, R121). -/
theorem cipherCommand_of_bytes {f : Block → Schedule → Block} {s : State} {b : Block} (hk : s.kv = true)
    (hl : s.ilen = 8#4) (hb : s.ibuf = blockToBytes b) :
    cipherCommand f s = completeCommand { s with dout := f b s.sk, ov := true } := by
  simp [cipherCommand, hk, operand_of_bytes hl hb]

/-- The row of a command write writes the opcode to `CMD` (spec/30_encoding.md R60). -/
theorem exec_commandRow (c : Byte) (s : State) : exec (commandRow c) s = .next (runCommand Config.tables c s) := by
  unfold commandRow
  split_ifs with h1 h2 h3 h4 h5
  · rw [h1]; rfl
  · rw [h2]; rfl
  · rw [h3]; rfl
  · rw [h4]; rfl
  · rw [h5]; rfl
  · rfl

/-- The row of a read reads the register number (spec/20_memory.md R39). -/
theorem exec_readRow (n : Regno) (s : State) : exec (readRow n) s = .next (readNumber n s) := by
  unfold readRow
  split <;> first | rfl | (rename_i h; show Host.Outcome.next _ = _; simp [readNumber, h, readReg])

/-- Write data is a byte exactly when it is below 256 (spec/30_encoding.md R65). -/
theorem narrowByte_cases (v : Block) :
    (v.toNat < 256 ∧ narrowByte v = some (v.extractLsb' 0 8)) ∨ (256 ≤ v.toNat ∧ narrowByte v = none) := by
  have hz : v.extractLsb' 8 56 = 0#56 ↔ v.toNat < 256 := by
    rw [← BitVec.toNat_inj]
    simp [Nat.shiftRight_eq_div_pow]
    omega
  by_cases h : v.toNat < 256
  · exact .inl ⟨h, if_pos (hz.mpr h)⟩
  · exact .inr ⟨by omega, if_neg (mt hz.mp h)⟩

/-- The row of every write by number and data (spec/20_memory.md R39, spec/60_exceptions.md R131). -/
theorem writeRow_cases (n : Regno) (v : Block) :
    (n = 0x00#6 ∧ v.toNat < 256 ∧ writeRow n v = .ok (commandRow (v.extractLsb' 0 8))) ∨
    (n = 0x02#6 ∧ v.toNat < 256 ∧ writeRow n v = .ok (.push (v.extractLsb' 0 8))) ∨
    ((n = 0x00#6 ∨ n = 0x02#6) ∧ 256 ≤ v.toNat ∧ writeRow n v = .error .partialWrite) ∨
    (n = 0x03#6 ∧ writeRow n v = .ok (.wrdin v)) ∨
    (isBadWrite n = true ∧ writeRow n v = .ok (.wrN n (v.extractLsb' 0 8))) := by
  have key : ∀ n : Regno, (n = 0x00#6 ∧ regOfNumber n = some .cmd) ∨ (n = 0x02#6 ∧ regOfNumber n = some .byteIn) ∨
      (n = 0x03#6 ∧ regOfNumber n = some .din) ∨ (isBadWrite n = true ∧ regOfNumber n ≠ some .cmd ∧
        regOfNumber n ≠ some .byteIn ∧ regOfNumber n ≠ some .din) := by decide
  obtain ⟨h, hr⟩ | ⟨h, hr⟩ | ⟨h, hr⟩ | ⟨h, h1, h2, h3⟩ := key n
  · obtain ⟨hv, hb⟩ | ⟨hv, hb⟩ := narrowByte_cases v
    · exact .inl ⟨h, hv, by simp [writeRow, hr, hb]⟩
    · exact .inr (.inr (.inl ⟨.inl h, hv, by simp [writeRow, hr, hb]⟩))
  · obtain ⟨hv, hb⟩ | ⟨hv, hb⟩ := narrowByte_cases v
    · exact .inr (.inl ⟨h, hv, by simp [writeRow, hr, hb]⟩)
    · exact .inr (.inr (.inl ⟨.inr h, hv, by simp [writeRow, hr, hb]⟩))
  · exact .inr (.inr (.inr (.inl ⟨h, by simp [writeRow, hr]⟩)))
  · refine .inr (.inr (.inr (.inr ⟨h, ?_⟩)))
    unfold writeRow
    split <;> simp_all

/-- Whatever the port takes on its wires completes with exactly one answer (spec/70_reset_and_hazards.md R150). -/
theorem exec_rowOf_answers {p : Transaction} {i : Instr} (hp : p ≠ .reset) (h : rowOf p = .ok i) (s : State) :
    ∃ t a, exec i s = .next t ∧ t.answers = s.answers ++ [a] := by
  have keygen : ∃ a, (keygenCommand s).answers = s.answers ++ [a] := by
    obtain ⟨-, h⟩ | ⟨-, -, h⟩ | ⟨-, -, k, -, h⟩ := keygenCommand_cases s <;> rw [h] <;> exact ⟨_, rfl⟩
  have cipher : ∀ f, ∃ a, (cipherCommand f s).answers = s.answers ++ [a] := by
    intro f
    obtain ⟨-, h⟩ | ⟨-, -, h⟩ | ⟨-, -, k, -, h⟩ := cipherCommand_cases f s <;> rw [h] <;> exact ⟨_, rfl⟩
  have command : ∀ c, ∃ a, (runCommand Config.tables c s).answers = s.answers ++ [a] := by
    intro c
    obtain ⟨-, h⟩ | ⟨-, h⟩ | ⟨-, h⟩ | ⟨-, h⟩ | ⟨-, h⟩ | ⟨-, h⟩ := runCommand_cases Config.tables c s <;> rw [h]
    · exact keygen
    · exact cipher _
    · exact cipher _
    all_goals exact ⟨_, rfl⟩
  cases p with
  | reset => exact absurd rfl hp
  | regRead n =>
    cases h
    obtain ⟨r, v, -, -, hx⟩ | ⟨-, hx⟩ := readNumber_cases n s
    · exact ⟨_, _, exec_readRow n s, by rw [hx]; rfl⟩
    · exact ⟨_, _, exec_readRow n s, by rw [hx]; rfl⟩
  | regWrite n v =>
    change writeRow n v = .ok i at h
    obtain ⟨-, -, hw⟩ | ⟨-, -, hw⟩ | ⟨-, -, hw⟩ | ⟨-, hw⟩ | ⟨hb, hw⟩ := writeRow_cases n v <;> rw [hw] at h <;> cases h
    · obtain ⟨a, ha⟩ := command (v.extractLsb' 0 8)
      exact ⟨_, a, exec_commandRow _ s, ha⟩
    · exact ⟨_, _, rfl, rfl⟩
    · exact ⟨_, _, rfl, rfl⟩
    · obtain ⟨rfl, -⟩ | ⟨rfl, -⟩ | ⟨rfl, -⟩ | ⟨-, hx⟩ := writeByte_cases Config.tables n (v.extractLsb' 0 8) s
      · exact absurd hb (by decide)
      · exact absurd hb (by decide)
      · exact absurd hb (by decide)
      · exact ⟨raiseError .badAccess .write s, _, by simp only [exec, execWrN, hx], rfl⟩

end Sys2Proof.Machine
end

