-- ==== Sys2Proof/Laws/RoundFunction.lean ====
section
/-! SUPPORT. The steps of F bit by bit (spec/42_round_function.md R87, R88, R89, R92). -/

namespace Sys2Proof.Machine

@[simp] theorem expand_getLsbD (c : Cfg) (h : Half) (j : Nat) (hj : j < 48) :
    (expand c h).getLsbD j = h.getLsbD c.eTable[j] := by
  simp [expand, hj]

@[simp] theorem mix_getLsbD (x : BitVec 48) (k : Subkey) (j : Nat) :
    (mix x k).getLsbD j = (x.getLsbD j ^^ k.getLsbD j) := by
  simp [mix]

@[simp] theorem permute_getLsbD (c : Cfg) (y : Half) (j : Nat) (hj : j < 32) :
    (permute c y).getLsbD j = y.getLsbD c.pTable[j] := by
  simp [permute, hj]

end Sys2Proof.Machine
end

