-- ==== Sys2Proof/Laws/Step.lean ====
section
/-! SUPPORT. What a step and a transaction can do, said once. -/

namespace Sys2Proof.Machine

/-- A step that answers a next state ran one transaction or had none to run. -/
theorem step_next_cases {s t : State} (h : step s = .next t) :
    (∃ i rest, decode s.trace = .ok (i, rest) ∧ exec i { s with trace := rest } = .next t) ∨
    (s.trace = [] ∧ t = s) := by
  unfold step at h
  obtain ⟨hn, hd⟩ | ⟨w, rest, -, -, hd⟩ | ⟨a, b, c, d, rest, -, hd⟩ | ⟨rest, -, -, hd⟩ := decode_cases s.trace
  · rw [hd] at h; simp only [Host.Outcome.next.injEq] at h; exact .inr ⟨hn, h.symm⟩
  · rw [hd] at h; exact .inl ⟨_, _, hd, h⟩
  · rw [hd] at h; exact .inl ⟨_, _, hd, h⟩
  · rw [hd] at h; cases h

/-- Every next state of a transaction is one of the shared operations' (the operations' own lemmas say what each of
them does). -/
theorem exec_next_cases {i : Instr} {s t : State} (h : exec i s = .next t) :
    (i = .reset ∧ t = resetRegisters s) ∨
    (t = keygenCommand s ∧ (i = .keygen ∨ i = .wrcmd 0x01#8 ∨ i = .wrN 0x00#6 0x01#8)) ∨
    (t = cipherCommand (encodeSK Config.tables) s ∧ (i = .enc ∨ i = .wrcmd 0x02#8 ∨ i = .wrN 0x00#6 0x02#8)) ∨
    (t = cipherCommand (decodeSK Config.tables) s ∧ (i = .dec ∨ i = .wrcmd 0x03#8 ∨ i = .wrN 0x00#6 0x03#8)) ∨
    (t = flushCommand s ∧ (i = .flush ∨ i = .wrcmd 0x04#8 ∨ i = .wrN 0x00#6 0x04#8)) ∨
    (t = clearCommand s ∧ (i = .clr ∨ i = .wrcmd 0x05#8 ∨ i = .wrN 0x00#6 0x05#8)) ∨
    (∃ c, isCommandOpcode c = false ∧ t = raiseError .illegalCommand .write s ∧ (i = .wrcmd c ∨ i = .wrN 0x00#6 c)) ∨
    (∃ b, t = answer .ok (pushByte b s) ∧ (i = .push b ∨ i = .wrN 0x02#6 b)) ∨
    (∃ v, i = .wrdin v ∧ t = answer .ok (loadOperand v s)) ∨
    (∃ v, t = answer (.value v) s ∧ (i = .rdStatus ∨ i = .rdDout ∨ i = .rdKey ∨ (∃ j, i = .rdObyte j) ∨
      (∃ j, i = .rdSk j) ∨ ∃ n, i = .rdN n ∧ isBadRead n = false)) ∨
    (∃ n, i = .rdN n ∧ isBadRead n = true ∧ t = raiseError .badAccess .read s) ∨
    (∃ n b, i = .wrN n b ∧ isBadWrite n = true ∧ t = raiseError .badAccess .write s) := by
  cases i with
  | reset => cases h; simp
  | keygen => cases h; simp
  | enc => cases h; simp
  | dec => cases h; simp
  | flush => cases h; simp
  | clr => cases h; simp
  | wrcmd c =>
    have ht : t = runCommand Config.tables c s := by cases h; rfl
    rcases runCommand_cases Config.tables c s with h | h | h | h | h | h <;> rw [h.2] at ht <;> simp [ht, h.1]
  | push b => cases h; simp
  | wrdin v => cases h; simp
  | malformed83 x => cases h
  | rdStatus => cases h; simp; exact ⟨_, rfl⟩
  | rdDout => cases h; simp; exact ⟨_, rfl⟩
  | rdKey => cases h; simp; exact ⟨_, rfl⟩
  | rdObyte j => cases h; simp; exact ⟨_, rfl⟩
  | rdSk j => cases h; simp; exact ⟨_, rfl⟩
  | rdN n =>
    have ht : t = readNumber n s := by cases h; rfl
    have hb := isBadRead_iff n s
    obtain ⟨r, v, hr, hv, hx⟩ | ⟨hr, hx⟩ := readNumber_cases n s
    · have : isBadRead n = false := by
        cases hn : isBadRead n
        · rfl
        · simp [hr, hv] at hb; exact absurd hn (by simp [hb])
      simp [ht, hx, this]; exact ⟨_, rfl⟩
    · simp [ht, hx, hb.mpr hr]
  | malformedRead n d => cases h
  | wrN n b =>
    simp only [exec, execWrN] at h
    rcases writeByte_cases Config.tables n b s with ⟨hn, hw⟩ | ⟨hn, hw⟩ | ⟨hn, hw⟩ | ⟨hn, hw⟩
    · rw [hw] at h; simp only [Host.Outcome.next.injEq] at h
      rcases runCommand_cases Config.tables b s with hc | hc | hc | hc | hc | hc <;> rw [hc.2] at h <;>
        simp [← h, hc.1, hn]
    · rw [hw] at h; simp only [Host.Outcome.next.injEq] at h; simp [← h, hn]
    · rw [hw] at h; cases h
    · rw [hw] at h; simp only [Host.Outcome.next.injEq] at h; simp [← h, hn]
  | malformedZ rw n d => cases h

/-- What the host has still to issue is neither read nor changed by a transaction. -/
theorem exec_withTrace (i : Instr) (s : State) (ws : List TWord) :
    exec i { s with trace := ws } = match exec i s with
      | .next t => .next { t with trace := ws }
      | .fault r => .fault r
      | .refused r => .refused r := by
  obtain ⟨key, kv, sk, ibuf, ilen, dout, ov, err, eflag, trace, answers⟩ := s
  have ho : operand ⟨key, kv, sk, ibuf, ilen, dout, ov, err, eflag, ws, answers⟩ =
    operand ⟨key, kv, sk, ibuf, ilen, dout, ov, err, eflag, trace, answers⟩ := rfl
  generalize hs : (⟨key, kv, sk, ibuf, ilen, dout, ov, err, eflag, trace, answers⟩ : State) = s at *
  have hk : keygenCommand { s with trace := ws } = { keygenCommand s with trace := ws } := by
    subst hs
    unfold keygenCommand
    simp only [ho]
    cases kv <;> cases operand ⟨key, _, sk, ibuf, ilen, dout, ov, err, eflag, trace, answers⟩ <;> rfl
  have hf : ∀ f, cipherCommand f { s with trace := ws } = { cipherCommand f s with trace := ws } := by
    intro f
    subst hs
    unfold cipherCommand
    simp only [ho]
    cases kv <;> cases operand ⟨key, _, sk, ibuf, ilen, dout, ov, err, eflag, trace, answers⟩ <;> rfl
  have hc : ∀ c, runCommand Config.tables c { s with trace := ws } =
      { runCommand Config.tables c s with trace := ws } := by
    intro c; unfold runCommand; rw [hk, hf, hf]; split_ifs <;> rfl
  cases i with
  | keygen => exact congrArg _ hk
  | enc => exact congrArg _ (hf _)
  | dec => exact congrArg _ (hf _)
  | wrcmd c => exact congrArg _ (hc c)
  | rdN n =>
    show Host.Outcome.next _ = Host.Outcome.next _
    rw [readNumber, readNumber]
    cases regOfNumber n with
    | none => rfl
    | some r => cases r <;> rfl
  | wrN n b =>
    simp only [exec, execWrN, writeByte]
    cases regOfNumber n with
    | none => rfl
    | some r => cases r <;> first | rfl | exact congrArg _ (hc b)
  | _ => rfl

end Sys2Proof.Machine
end

