-- ==== Sys2Proof/Tests/Slice0.lean ====
section
/-! SUPPORT. The model's own tests. Expected values come from spec/95_test_vectors.md (its section is named at each
group) or are read off the encoding tables of spec/30_encoding.md; and for every obligation with hypotheses one
theorem shows a state and operands that meet them (`test_witness_…`). -/

namespace Sys2Proof.Tests

open Sys2Proof Sys2Proof.Machine

/- One test after the other: each kernel evaluation waits for all that stands before it, and many of them waiting at
once need more threads than the memory limit allows. -/
set_option Elab.async false

/-! ## Well-formed terms, and one ill-formed term for each check (R61) -/

theorem test_wf_catch_alls : ∀ i ∈ [Instr.wrcmd 0x00#8, .wrcmd 0x06#8, .wrcmd 0xFF#8, .malformed83 0x01#8, .rdN 0x00#6,
    .rdN 0x03#6, .rdN 0x06#6, .rdN 0x20#6, .rdN 0x3F#6, .malformedRead 0x01#6 0x01#8, .wrN 0x01#6 0x00#8,
    .wrN 0x04#6 0x00#8, .wrN 0x3F#6 0xFF#8, .malformedZ true 0x00#6 0x01#8, .malformedZ false 0x00#6 0x00#8,
    .malformedZ true 0x01#6 0x00#8], i.wellFormed = true := by decide

theorem test_wf_refuses_legal_command : ∀ c ∈ [0x01#8, 0x02#8, 0x03#8, 0x04#8, 0x05#8],
    (Instr.wrcmd c).wellFormed = false := by decide

theorem test_wf_refuses_malformed83_zero : (Instr.malformed83 0x00#8).wellFormed = false := by decide

theorem test_wf_refuses_legal_read : ∀ n ∈ [0x01#6, 0x04#6, 0x05#6, 0x08#6, 0x0F#6, 0x10#6, 0x1F#6],
    (Instr.rdN n).wellFormed = false := by decide

theorem test_wf_refuses_read_without_data : (Instr.malformedRead 0x01#6 0x00#8).wellFormed = false := by decide

theorem test_wf_refuses_legal_write : ∀ n ∈ [0x00#6, 0x02#6, 0x03#6], (Instr.wrN n 0x01#8).wellFormed = false := by
  decide

theorem test_wf_refuses_reset_word_as_malformed : (Instr.malformedZ true 0x00#6 0x00#8).wellFormed = false := by decide

/-- The raw record of `REF`, written out from section 2 of the vectors. -/
def rawRef : RawCfg where
  eTable := List.range 32 ++ List.range 16
  pTable := List.range 32
  sbox := [[14, 4, 13, 1, 2, 15, 11, 8, 3, 10, 6, 12, 5, 9, 0, 7], [0, 15, 7, 4, 14, 2, 13, 1, 10, 6, 12, 11, 9, 5, 3, 8],
    [4, 1, 14, 8, 13, 6, 2, 11, 15, 12, 9, 7, 3, 10, 5, 0], [15, 12, 8, 2, 4, 9, 1, 7, 5, 11, 3, 14, 10, 0, 6, 13]]

theorem test_raw_ref : cfgOfRaw rawRef = some refCfg := by decide +kernel

/-- Each check of R96 by a record that fails it alone. -/
theorem test_raw_refused : ∀ r ∈ [{ rawRef with eTable := List.range 32 }, { rawRef with eTable := List.replicate 48 32 },
    { rawRef with pTable := List.range 31 }, { rawRef with pTable := List.replicate 32 32 }, { rawRef with sbox := [] },
    { rawRef with sbox := List.replicate 4 [0] }, { rawRef with sbox := List.replicate 4 (List.replicate 16 16) }],
    r.wellFormed = false ∧ cfgOfRaw r = none := by decide +kernel

/-- Section 2: a few entries of `TST` as printed there. -/
theorem test_tst_entries : tstCfg.eTable[6] = 1 ∧ tstCfg.eTable[47] = 14 ∧ tstCfg.pTable[0] = 5 ∧
    tstCfg.pTable[31] = 30 ∧ tstCfg.sbox[1][0] = 4#4 ∧ tstCfg.sbox[3][15] = 5#4 := by decide +kernel

/-! ## Words written out from R56, R60 and R61, one for each constructor -/

/-- The transaction that a list of words spells, if it spells one and nothing more. -/
def reads (ws : List TWord) : Option Instr :=
  match decode ws with
  | .ok (i, []) => some i
  | _ => none

theorem test_decode_reset : reads [0xC000#16] = some .reset := by decide
theorem test_decode_keygen : reads [0x8001#16] = some .keygen := by decide
theorem test_decode_enc : reads [0x8002#16] = some .enc := by decide
theorem test_decode_dec : reads [0x8003#16] = some .dec := by decide
theorem test_decode_flush : reads [0x8004#16] = some .flush := by decide
theorem test_decode_clr : reads [0x8005#16] = some .clr := by decide

theorem test_decode_wrcmd : reads [0x8000#16] = some (.wrcmd 0x00#8) ∧ reads [0x8006#16] = some (.wrcmd 0x06#8) := by
  decide

/-- `rw = 1`, `z = 0`, `regno = 000010`, `d8 = 0x24`. -/
theorem test_decode_push : reads [0b1000001000100100#16] = some (.push 0x24#8) := by decide

/-- The payload most significant word first. -/
theorem test_decode_wrdin : reads [0x8300#16, 0x1334#16, 0x577E#16, 0x6BBE#16, 0xF7C1#16] =
    some (.wrdin 0x1334577E6BBEF7C1#64) := by decide +kernel

theorem test_decode_malformed83 : reads [0x83FF#16] = some (.malformed83 0xFF#8) := by decide
theorem test_decode_rdStatus : reads [0b0000000100000000#16] = some .rdStatus := by decide
theorem test_decode_rdDout : reads [0x0400#16] = some .rdDout := by decide
theorem test_decode_rdKey : reads [0x0500#16] = some .rdKey := by decide

/-- `OBYTE0` is register 0x08 and `OBYTE6` register 0x0E (R39; program P2 has the word 0E00). -/
theorem test_decode_rdObyte : reads [0x0800#16] = some (.rdObyte 0#3) ∧ reads [0x0E00#16] = some (.rdObyte 6#3) := by
  decide

/-- `SK0` is register 0x10 and `SK15` register 0x1F (R39). -/
theorem test_decode_rdSk : reads [0x1000#16] = some (.rdSk 0#4) ∧ reads [0x1F00#16] = some (.rdSk 15#4) := by decide

theorem test_decode_rdN : reads [0x0000#16] = some (.rdN 0x00#6) ∧ reads [0x3F00#16] = some (.rdN 0x3F#6) := by decide
theorem test_decode_malformedRead : reads [0x3F80#16] = some (.malformedRead 0x3F#6 0x80#8) := by decide

theorem test_decode_wrN : reads [0x8101#16] = some (.wrN 0x01#6 0x01#8) ∧ reads [0xBFFF#16] = some (.wrN 0x3F#6 0xFF#8) := by
  decide

theorem test_decode_malformedZ : reads [0x4000#16] = some (.malformedZ false 0x00#6 0x00#8) ∧
    reads [0xFFFF#16] = some (.malformedZ true 0x3F#6 0xFF#8) := by decide

/-- The table's number of a row: the first word in bits 15..0, operand words of zeros after it. -/
theorem test_table_word : decodeTableWord 16 0x8001 = some .keygen ∧ decodeTableWord 80 0x8300 = some (.wrdin 0#64) ∧
    decodeTableWord 16 0x8300 = some (.wrdin 0#64) := by decide +kernel

/-- The host's question: the word of a row is what the first step after reset runs. -/
theorem test_fetch_word : step (State.reset.withFetchWord 16 0x8204) = exec (.push 0x04#8) State.reset := rfl

/-- Section 4, program P2, its first words. -/
theorem test_trace : (match decodeTrace [0xC000#16, 0x8300#16, 0x1334#16, 0x577E#16, 0x6BBE#16, 0xF7C1#16, 0x8001#16] with
    | .ok is => some is
    | .error _ => none) = some [.reset, .wrdin 0x1334577E6BBEF7C1#64, .keygen] := by decide +kernel

/-! ## One transaction each (sections 3.1, 3.2 and 3.7) -/

/-- The key of the source's scenario. -/
def scenarioKey : Block := 0x1334577E6BBEF7C1#64

/-- The block of the source's scenario. -/
def scenarioBlock : Block := 0x24486F6C61204445#64

/-- A state with the key of the scenario loaded. -/
def keyed : State := loadKey scenarioKey State.reset

/-- A state that has been offered `n` bytes, 1, 2, 3 and so on. -/
def offered : Nat → State → State
  | 0, s => s
  | n + 1, s => pushByte (BitVec.ofNat 8 (n + 1)) (offered n s)

/-- `STATUS` after a transaction, and its answer. -/
def outcome (i : Instr) (s : State) : Option (BitVec 16 × Option Answer) :=
  match exec i s with
  | .next t => some (statusWord t, t.answers.getLast?)
  | _ => none

/-- A register after a transaction. -/
def after {α : Type} (i : Instr) (s : State) (f : State → α) : Option α :=
  match exec i s with
  | .next t => some (f t)
  | _ => none

theorem test_reset : outcome .reset (offered 3 keyed) = some (0x0000#16, none) := by decide +kernel
theorem test_reset_key : after .reset keyed State.key = some 0#64 := by decide +kernel

theorem test_keygen_schedule : after .keygen (loadOperand scenarioKey State.reset)
    (fun t => (t.key, t.sk[0], t.sk[15], statusWord t)) =
    some (scenarioKey, 0x577E6BBEF7C1#48, 0x2668AEFCD77D#48, 0x0001#16) := by decide +kernel

theorem test_keygen_errors : outcome .keygen State.reset = some (0x0014#16, some (.error .lengthError)) ∧
    outcome .keygen (loadOperand 0x0123456789ABCDEF#64 keyed) = some (0x0035#16, some (.error .keyLockedError)) := by
  decide +kernel

theorem test_enc_without_key : outcome .enc (offered 5 State.reset) =
    some (0x0024#16, some (.error .noKeyError)) := by decide +kernel

theorem test_enc_status : outcome .enc (loadOperand scenarioBlock keyed) = some (0x0003#16, some .ok) := by
  decide +kernel

theorem test_dec_nine_bytes : outcome .dec (offered 9 keyed) = some (0x0015#16, some (.error .lengthError)) := by
  decide +kernel

theorem test_dec_status : outcome .dec (loadOperand scenarioBlock keyed) = some (0x0003#16, some .ok) := by
  decide +kernel

theorem test_flush : after .flush (offered 3 State.reset) (fun t => (t.ibuf, statusWord t)) =
    some (#v[0#8, 0#8, 0#8, 0#8, 0#8, 0#8, 0#8, 0#8], 0x0000#16) := by decide +kernel

theorem test_clr : outcome .clr (offered 3 keyed) = some (0x0000#16, some .ok) := by decide +kernel
theorem test_wrcmd_six : outcome (.wrcmd 0x06#8) (offered 3 keyed) =
    some (0x0345#16, some (.error .illegalCommand)) := by decide +kernel
theorem test_wrcmd_zero : outcome (.wrcmd 0x00#8) { keyed with ov := true } =
    some (0x0047#16, some (.error .illegalCommand)) := by decide +kernel

theorem test_push_ninth : after (.push 0x09#8) (offered 8 State.reset) (fun t => (t.ibuf, statusWord t)) =
    some (#v[1#8, 2#8, 3#8, 4#8, 5#8, 6#8, 7#8, 8#8], 0x0900#16) := by decide +kernel

theorem test_push_saturates : outcome (.push 0xAA#8) (offered 15 State.reset) = some (0x0F00#16, some .ok) := by
  decide +kernel

theorem test_wrdin_replaces : after (.wrdin 0x0102030405060708#64) (offered 12 State.reset)
    (fun t => (t.ibuf, statusWord t)) = some (#v[1#8, 2#8, 3#8, 4#8, 5#8, 6#8, 7#8, 8#8], 0x0800#16) := by
  decide +kernel

theorem test_rdStatus : outcome .rdStatus keyed = some (0x0001#16, some (.value (.status 0x0001#16))) := by
  decide +kernel

theorem test_rdDout : outcome .rdDout { State.reset with dout := 0xFF8B13A22C4766F3#64 } =
    some (0x0000#16, some (.value (.block 0xFF8B13A22C4766F3#64))) := by decide +kernel

theorem test_rdKey : outcome .rdKey keyed = some (0x0001#16, some (.value (.block scenarioKey))) := by decide +kernel

theorem test_rdObyte : outcome (.rdObyte 1#3) { State.reset with dout := 0xFF8B13A22C4766F3#64 } =
    some (0x0000#16, some (.value (.byte 0x8B#8))) := by decide +kernel

theorem test_rdObyte_last : outcome (.rdObyte 7#3) { State.reset with dout := 0xFF8B13A22C4766F3#64 } =
    some (0x0000#16, some (.value (.byte 0xF3#8))) := by decide +kernel

theorem test_rdSk : outcome (.rdSk 7#4) keyed = some (0x0001#16, some (.value (.subkey 0x68AEFCD77DEF#48))) := by
  decide +kernel

theorem test_rdN : outcome (.rdN 0x00#6) (offered 3 keyed) =
    some (0x0355#16, some (.readError .badAccess)) := by decide +kernel

theorem test_wrN : outcome (.wrN 0x3F#6 0xAA#8) State.reset = some (0x0054#16, some (.error .badAccess)) := by
  decide +kernel

/-- R62 item 3. -/
theorem test_malformed_refused : exec (.malformed83 0x01#8) State.reset = .refused .malformed83xx ∧
    exec (.malformedRead 0x00#6 0x01#8) State.reset = .refused .malformedRead ∧
    exec (.malformedZ false 0x00#6 0x00#8) State.reset = .refused .malformedZ := ⟨rfl, rfl, rfl⟩

/-- R64: the expansions. -/
theorem test_pseudo : pushs "$Hola DE".toList = some (pushb [0x24#8, 0x48#8, 0x6F#8, 0x6C#8, 0x61#8, 0x20#8, 0x44#8, 0x45#8]) ∧
    loadkey 1#64 = [.wrdin 1#64, .keygen] ∧ encodeSeq 2#64 = [.wrdin 2#64, .enc, .rdDout] ∧
    decodeSeq 2#64 = [.wrdin 2#64, .dec, .rdDout] ∧ rdbytes.length = 8 := by decide +kernel

/-! ## The function layer (sections 3.1 to 3.5) -/

theorem test_subkey : subkey 0x0123456789ABCDEF#64 7 = 0x468ACF13579B#48 ∧
    subkey 0x4000000000000000#64 15 = 0x800000000000#48 := by decide

theorem test_bytesToBlock : (match bytesToBlock [0x24#8, 0x48#8, 0x6F#8, 0x6C#8, 0x61#8, 0x20#8, 0x44#8, 0x45#8] with
    | .ok b => b
    | .error _ => 0#64) = scenarioBlock ∧ (blockToBytes scenarioBlock)[0] = 0x24#8 := by decide +kernel

theorem test_expand_tst : expand tstCfg 0x80000000#32 = 0x100000001000#48 ∧
    expand tstCfg 0x12345678#32 = 0xE4A96C20E4A9#48 := by decide +kernel

theorem test_mix : mix 0x444561204445#48 0x577E6BBEF7C1#48 = 0x133B0A9EB384#48 := by decide +kernel

theorem test_substitute : substitute refCfg 0x04000000003E#48 = 0x0EEEEEE0#32 ∧
    substitute tstCfg 0x123456789ABC#48 = 0xBFC8C80D#32 := by decide +kernel

theorem test_permute_tst : permute tstCfg 0x00000001#32 = 0x00002000#32 ∧
    permute tstCfg 0x12345678#32 = 0x128F9A03#32 := by decide +kernel

theorem test_roundF : roundF refCfg 0xFF6746E1#32 0x2BBF35DF7BE0#48 = 0x5C0FBF90#32 ∧
    roundF tstCfg 0xFF6746E1#32 0x2BBF35DF7BE0#48 = 0x5F81A08D#32 := by decide +kernel

theorem test_runRounds : runRounds refCfg 0x24486F6C#32 0x61204445#32 (schedule scenarioKey) true =
    (0x2C4766F3#32, 0xFF8B13A2#32) := by decide +kernel

/-- R106: started from the result not exchanged, the reverse pass gives neither the start nor its exchange. -/
theorem test_runRounds_not_exchanged : runRounds refCfg 0x2C4766F3#32 0xFF8B13A2#32 (schedule scenarioKey) false =
    (0xD77059EC#32, 0xABA9ADDE#32) := by decide +kernel

theorem test_encode_ref : encodeBlock refCfg scenarioBlock scenarioKey = 0xFF8B13A22C4766F3#64 := by decide +kernel
theorem test_decode_ref : decodeBlock refCfg scenarioBlock scenarioKey = 0x6AAD8A51EBBA69D7#64 := by decide +kernel
theorem test_encode_tst : encodeBlock tstCfg scenarioBlock scenarioKey = 0x60FC69762A385B99#64 := by decide +kernel
theorem test_decode_tst : decodeBlock tstCfg 0x60FC69762A385B99#64 scenarioKey = scenarioBlock := by decide +kernel

/-! ## The hypotheses of the obligations can be met -/

theorem test_witness_keygen : (keyed.kv = true) ∧ (State.reset.kv = false ∧ (offered 7 State.reset).ilen ≠ 8#4) ∧
    ((offered 9 State.reset).kv = false ∧ (offered 9 State.reset).ilen = 9#4) ∧
    ((offered 8 State.reset).kv = false ∧ (offered 8 State.reset).ilen = 8#4) := by decide +kernel

/-- For `ENC` and `DEC`, each clause; for the first of them the length is at its boundaries too. -/
theorem test_witness_cipher : (State.reset.kv = false) ∧ ((offered 7 keyed).kv = true ∧ (offered 7 keyed).ilen ≠ 8#4) ∧
    ((offered 9 keyed).kv = true ∧ (offered 9 keyed).ilen ≠ 8#4) ∧
    ((offered 8 keyed).kv = true ∧ (offered 8 keyed).ilen = 8#4) := by decide +kernel

theorem test_witness_flush : State.reset.ilen = 0#4 ∧ ∀ i : Fin 8, State.reset.ibuf[i] = 0x00#8 := by decide

theorem test_witness_illegal_command : ((0x00#8).toNat = 0 ∨ 6 ≤ (0x00#8).toNat) ∧
    ((0x06#8).toNat = 0 ∨ 6 ≤ (0x06#8).toNat) ∧ ((0xFF#8).toNat = 0 ∨ 6 ≤ (0xFF#8).toNat) := by decide

/-- The boundary registers of both directions. -/
theorem test_witness_bad_access :
    (∀ n ∈ [0x00#6, 0x03#6, 0x06#6, 0x07#6, 0x20#6, 0x3F#6],
      n.toNat ∈ [0x00, 0x02, 0x03, 0x06, 0x07] ∨ 0x20 ≤ n.toNat) ∧
    ∀ n ∈ [0x01#6, 0x04#6, 0x3F#6], n.toNat = 0x01 ∨ 0x04 ≤ n.toNat := by decide

theorem test_witness_malformed :
    ((0x8301#16).extractLsb' 8 8 = 0x83#8 ∧ 0x8301#16 ≠ 0x8300#16) ∧
    ((0x83FF#16).extractLsb' 8 8 = 0x83#8 ∧ 0x83FF#16 ≠ 0x8300#16) ∧
    ((0x0001#16).getLsbD 15 = false ∧ (0x0001#16).getLsbD 14 = false ∧ (0x0001#16).extractLsb' 0 8 ≠ 0x00#8) ∧
    ((0x3FFF#16).getLsbD 15 = false ∧ (0x3FFF#16).getLsbD 14 = false ∧ (0x3FFF#16).extractLsb' 0 8 ≠ 0x00#8) ∧
    ((0x4000#16).getLsbD 14 = true ∧ 0x4000#16 ≠ 0xC000#16) ∧ ((0xC001#16).getLsbD 14 = true ∧ 0xC001#16 ≠ 0xC000#16) ∧
    { State.reset with trace := [0x8301#16] }.trace = 0x8301#16 :: [] := by decide

theorem test_witness_state_error : ((offered 7 State.reset).ilen ≠ 8#4 ∧ (offered 7 State.reset).kv = false) ∧
    ((offered 9 keyed).ilen ≠ 8#4 ∧ (offered 9 keyed).kv = true) := by decide +kernel

/-- One transaction for each of the five errors, two of them for `LengthError`. -/
theorem test_witness_error_effect :
    (∃ t, exec .keygen State.reset = .next t ∧ t.answers = State.reset.answers ++ [.error .lengthError]) ∧
    (∃ t, exec .enc keyed = .next t ∧ t.answers = keyed.answers ++ [.error .lengthError]) ∧
    (∃ t, exec .dec State.reset = .next t ∧ t.answers = State.reset.answers ++ [.error .noKeyError]) ∧
    (∃ t, exec .keygen keyed = .next t ∧ t.answers = keyed.answers ++ [.error .keyLockedError]) ∧
    (∃ t, exec (.wrcmd 0x06#8) keyed = .next t ∧ t.answers = keyed.answers ++ [.error .illegalCommand]) ∧
    (∃ t, exec (.wrN 0x01#6 0#8) keyed = .next t ∧ t.answers = keyed.answers ++ [.error .badAccess]) ∧
    ∃ t, exec (.rdN 0x20#6) keyed = .next t ∧ t.answers = keyed.answers ++ [.readError .badAccess] :=
  ⟨⟨_, rfl, rfl⟩, ⟨_, rfl, rfl⟩, ⟨_, rfl, rfl⟩, ⟨_, rfl, rfl⟩, ⟨_, rfl, rfl⟩, ⟨_, rfl, rfl⟩, ⟨_, rfl, rfl⟩⟩

theorem test_witness_answered : ∀ i ∈ [Instr.reset, .push 0xFF#8, .wrdin 0#64, .rdStatus, .rdDout, .rdKey, .rdObyte 7#3,
    .rdSk 15#4, .enc], i.wellFormed = true ∧ i.malformedName = none := by decide

theorem test_witness_read : ∃ (t : State) (v : Value), exec (readRow 0x01#6) keyed = .next t ∧
    t.answers = keyed.answers ++ [.value v] := ⟨_, _, rfl, rfl⟩

theorem test_witness_key_immutable : ∃ t, exec .keygen keyed = .next t ∧ keyed.kv = true := ⟨_, rfl, rfl⟩

/-- A flag cleared, an error code newly written, a flag newly set. -/
theorem test_witness_error_flag :
    (∃ t, exec .clr { State.reset with eflag := true } = .next t ∧ t.eflag = false) ∧
    ∃ t, exec (.rdN 0x00#6) State.reset = .next t ∧ t.err ≠ State.reset.err ∧ t.err ≠ 0#3 ∧ State.reset.eflag = false ∧
      t.eflag = true := ⟨⟨_, rfl, rfl⟩, _, rfl, by decide, by decide, rfl, rfl⟩

/-- A cipher command that answers `OK` and one that does not, a reset, and a transaction of none of these kinds. -/
theorem test_witness_output_valid :
    (∃ t, exec .enc (loadOperand scenarioBlock keyed) = .next t ∧ t.answers = keyed.answers ++ [.ok]) ∧
    (∃ t, exec .dec keyed = .next t ∧ t.answers ≠ keyed.answers ++ [.ok]) ∧ (∃ t, exec .reset keyed = .next t) ∧
    ∃ t, exec .rdStatus keyed = .next t := ⟨⟨_, rfl, rfl⟩, ⟨_, rfl, by decide +kernel⟩, ⟨_, rfl⟩, _, rfl⟩

/-- Two different states with one schedule and one buffer, and a cipher command that succeeds in both. -/
theorem test_witness_result_depends : ∃ s t s' t', s ≠ t ∧ exec .enc s = .next s' ∧ exec .enc t = .next t' ∧
    s'.answers = s.answers ++ [.ok] ∧ t'.answers = t.answers ++ [.ok] ∧ s.sk = t.sk ∧ s.ibuf = t.ibuf :=
  ⟨loadOperand scenarioBlock keyed, { loadOperand scenarioBlock keyed with eflag := true }, _, _,
    fun h => by simpa [loadOperand, keyed, loadKey, State.reset] using congrArg State.eflag h, rfl, rfl, rfl, rfl, rfl, rfl⟩

/-- The invariants hold of a state with a key, an operand begun and an error recorded, and that state can step. -/
theorem test_witness_invariants : ∃ s t, EngineInv s ∧ s.kv = true ∧ s.ilen ≠ 0#4 ∧ s.err ≠ 0#3 ∧ step s = .next t := by
  refine ⟨{ offered 3 keyed with err := 1#3, eflag := true, trace := [0x8002#16] }, _, ⟨fun _ => rfl, ?_, ?_, ?_, ?_, ?_⟩,
    rfl, ?_, ?_, rfl⟩ <;> decide +kernel

/-- A reachable state with a key and a whole operand. -/
theorem test_witness_reachable : ∃ s, Reachable s ∧ s.kv = true ∧ s.ilen = 8#4 ∧ s.ibuf = blockToBytes scenarioBlock :=
  ⟨_, .transaction (.wrdin scenarioBlock) _ _ (.transaction .keygen _ _ (.transaction (.wrdin scenarioKey) _ _ (.reset []) rfl)
    rfl) rfl, rfl, rfl, rfl⟩

/-- A reachable state without a key, with an error and with a buffer partly filled. -/
theorem test_witness_reachable_without_key : ∃ s, Reachable s ∧ s.kv = false ∧ s.err ≠ 0#3 ∧ s.ilen = 1#4 :=
  ⟨_, .transaction (.push 1#8) _ _ (.transaction .enc _ _ (.reset []) rfl) rfl, rfl, by decide, rfl⟩

/-- A reachable state with a valid result. -/
theorem test_witness_reachable_result : ∃ s, Reachable s ∧ s.ov = true := by
  obtain ⟨s, hr, hk, hl, hb⟩ := test_witness_reachable
  have ho : operand s = .ok scenarioBlock := by
    simp only [operand, hl, hb, if_true]; rfl
  refine ⟨_, .transaction .enc s _ hr rfl, ?_⟩
  simp [cipherCommand, hk, ho, completeCommand, consume, answer]

theorem test_witness_load_then_cipher :
    (Instr.enc = .enc ∧ encodeBlock = encodeBlock ∨ Instr.enc = .dec ∧ encodeBlock = decodeBlock) ∧
    (Instr.dec = .enc ∧ decodeBlock = encodeBlock ∨ Instr.dec = .dec ∧ decodeBlock = decodeBlock) :=
  ⟨.inl ⟨rfl, rfl⟩, .inr ⟨rfl, rfl⟩⟩

theorem test_witness_step :
    (decode { State.reset with trace := [0x8001#16, 0x0100#16] }.trace = .ok (.keygen, [0x0100#16])) ∧
    (State.reset.trace = []) ∧
    { State.reset with trace := [0x8300#16, 0#16, 0#16, 0#16] }.trace = 0x8300#16 :: [0#16, 0#16, 0#16] ∧
    [0#16, 0#16, 0#16].length < 4 := ⟨rfl, rfl, rfl, by decide⟩

theorem test_witness_steps_of_trace : (∀ i ∈ [Instr.push 1#8, .wrdin 2#64, .rdN 0x20#6], i.wellFormed = true) ∧
    { State.reset with trace := [0x8201#16, 0x8300#16, 0#16, 0#16, 0#16, 2#16, 0x2000#16, 0x8001#16] }.trace =
      encodeTrace [.push 1#8, .wrdin 2#64, .rdN 0x20#6] ++ [0x8001#16] := by decide +kernel

/-- For the round trips of words: terms at the ends of their ranges, and a word that is not 0x8300. -/
theorem test_witness_words : (∀ i ∈ [Instr.wrcmd 0xFF#8, .push 0x00#8, .wrdin 0xFFFFFFFFFFFFFFFF#64, .malformed83 0xFF#8,
    .rdObyte 7#3, .rdSk 15#4, .rdN 0x3F#6, .malformedRead 0x3F#6 0xFF#8, .wrN 0x3F#6 0x00#8,
    .malformedZ false 0x3F#6 0xFF#8], i.wellFormed = true) ∧ 0x8301#16 ≠ 0x8300#16 ∧
    decode [0x83FF#16] = .ok (.malformed83 0xFF#8, []) := ⟨by decide, by decide, rfl⟩

theorem test_witness_trace_decoder :
    (∀ i ∈ [Instr.reset, .wrdin 1#64], i.wellFormed = true ∧ i.malformedName = none) ∧
    ((Instr.malformed83 1#8).wellFormed = true ∧ (Instr.malformed83 1#8).malformedName = some .malformed83xx) ∧
    ((Instr.malformedRead 1#6 1#8).wellFormed = true ∧
      (Instr.malformedRead 1#6 1#8).malformedName = some .malformedRead) ∧
    ((Instr.malformedZ false 0#6 0#8).wellFormed = true ∧
      (Instr.malformedZ false 0#6 0#8).malformedName = some .malformedZ) ∧ ([] : List TWord).length < 4 := by decide

/-- For the second clause a reset, a read, writes at the end of what an 8-bit register takes, and one of `DIN`; for the
third the boundary numbers. -/
theorem test_witness_rows : (∀ t ∈ [Transaction.reset, .regRead 0x3F#6, .regWrite 0x00#6 255#64, .regWrite 0x02#6 255#64,
      .regWrite 0x03#6 0xFFFFFFFFFFFFFFFF#64], ∀ n v, t = .regWrite n v →
      n = 0x00#6 ∧ v.toNat < 256 ∨ n = 0x02#6 ∧ v.toNat < 256 ∨ n = 0x03#6) ∧
    ∀ n ∈ [0x01#6, 0x04#6, 0x3F#6], n.toNat = 0x01 ∨ 0x04 ≤ n.toNat := by
  refine ⟨fun t ht n v h => ?_, by decide⟩
  subst h
  simp at ht
  rcases ht with ⟨rfl, rfl⟩ | ⟨rfl, rfl⟩ | ⟨rfl, rfl⟩ <;> simp

/-- Writes at the port by number: the last byte that `CMD` and `BYTE_IN` take, and the first data that is none. -/
theorem test_port_writes : (∀ n ∈ [0x00#6, 0x02#6], ∃ i, rowOf (.regWrite n 255#64) = .ok i) ∧
    (∀ n ∈ [0x00#6, 0x02#6], rowOf (.regWrite n 256#64) = .error .partialWrite) ∧
    rowOf (.regWrite 0x3F#6 0x1FF#64) = .ok (.wrN 0x3F#6 0xFF#8) := by
  refine ⟨?_, ?_, rfl⟩ <;> simp only [List.forall_mem_cons, List.not_mem_nil, false_implies, implies_true, and_true]
  · exact ⟨⟨_, rfl⟩, _, rfl⟩
  · exact ⟨rfl, rfl⟩

theorem test_witness_subkey : 0 ≤ 15 ∧ 15 ≤ 15 ∧ 47 < 48 := by decide

theorem test_witness_schedule_equal : schedule scenarioKey = schedule 0x9334577E6BBEF7C1#64 := by decide +kernel

theorem test_witness_lengths : ([] : List Byte).length ≠ 8 ∧ (List.replicate 7 0#8).length ≠ 8 ∧
    (List.replicate 9 0#8).length ≠ 8 := by decide

/-- Group 0 of 0x840000000000 is 100001: row 3, column 0 (section 3.3); group 7 of 0x04000000003E is 111110: row 2,
column 15. -/
theorem test_witness_substitute :
    ((3 : Fin 4).val = 2 * ((0x840000000000#48).getLsbD (47 - 6 * (0 : Fin 8).val)).toNat +
      ((0x840000000000#48).getLsbD (42 - 6 * (0 : Fin 8).val)).toNat ∧
      (0 : Fin 16).val = ((0x840000000000#48).extractLsb' (43 - 6 * (0 : Fin 8).val) 4).toNat) ∧
    (2 : Fin 4).val = 2 * ((0x04000000003E#48).getLsbD (47 - 6 * (7 : Fin 8).val)).toNat +
      ((0x04000000003E#48).getLsbD (42 - 6 * (7 : Fin 8).val)).toNat ∧
    (15 : Fin 16).val = ((0x04000000003E#48).extractLsb' (43 - 6 * (7 : Fin 8).val) 4).toNat := by decide

theorem test_witness_rounds : runRounds tstCfg 0x24486F6C#32 0x61204445#32 (schedule scenarioKey) true =
    (0x2A385B99#32, 0x60FC6976#32) := by decide +kernel

theorem test_witness_equal_subkeys : 0xFFFFFFFFFFFFFFFF#64 ∈
    [0#64, 0x8000000000000000#64, 0x7FFFFFFFFFFFFFFF#64, 0xFFFFFFFFFFFFFFFF#64] := by decide

theorem test_witness_flipped_bit : 0 < 64 ∧ 63 < 64 := by decide

/-- The degenerate configuration of section 3.4. -/
theorem test_witness_constant_matrix : ∀ (r : Fin 4) (col : Fin 16),
    ({ refCfg with sbox := Vector.replicate 4 (Vector.replicate 16 7#4) } : Cfg).sbox[r][col] = 7#4 := by decide +kernel

theorem test_witness_raw : ∃ c, cfgOfRaw rawRef = some c := ⟨_, test_raw_ref⟩

/-- Two engines, of which each takes a step. -/
theorem test_witness_engines : ∃ ts us, (1 : Nat) ≠ 0 ∧
    stepInstance 0 [State.reset.withFetchWord 16 0x8204, State.reset.withFetchWord 16 0x0100] = .next ts ∧
    stepInstance 1 ts = .next us := ⟨_, _, by decide, rfl, rfl⟩

/-- A read of `STATUS` held on the wires. -/
def statusPins : Pins := { rst := false, req := true, rw := false, regno := 0x01#6, wdata := 0#64 }

/-- An idle port. -/
def idlePort : PortState := { engine := keyed, waiting := none, begun := 0 }

/-- A reset with a transaction outstanding, an edge without an answer, and one with it. -/
theorem test_witness_clock_edge :
    (∃ q' o, clockEdge { statusPins with rst := true } { idlePort with waiting := some 0 } = .next (q', o)) ∧
    (∃ q' o, clockEdge statusPins { idlePort with waiting := some 1 } = .next (q', o) ∧ o.ack = false) ∧
    ∃ q' o, clockEdge statusPins { idlePort with waiting := some 0 } = .next (q', o) ∧ o.ack = true :=
  ⟨⟨_, _, rfl⟩, ⟨_, _, rfl, rfl⟩, _, _, rfl, rfl⟩

/-- A read of `STATUS`, a command, a write of `DIN` and a bad write, each held on the wires of an idle port. -/
theorem test_witness_held_request : statusPins.rst = false ∧ statusPins.req = true ∧ statusPins.rw = false ∧
    statusPins.regno = 0x01#6 ∧ idlePort.waiting = none ∧ rowOf (pinTransaction statusPins) = .ok .rdStatus ∧
    rowOf (pinTransaction { statusPins with rw := true, regno := 0x00#6, wdata := 2#64 }) = .ok .enc ∧
    rowOf (pinTransaction { statusPins with rw := true, regno := 0x03#6 }) = .ok (.wrdin 0#64) ∧
    rowOf (pinTransaction { statusPins with rw := true }) = .ok (.wrN 0x01#6 0#8) :=
  ⟨rfl, rfl, rfl, rfl, rfl, rfl, rfl, rfl, rfl⟩

/-- The choices of assumption log 7: the wires at the `ack` edge are the transaction, and a `req` still high after a
reset, or after an answered `ack`, is a new request. -/
theorem test_signal_choices :
    (∃ q', clockEdge { statusPins with regno := 0x05#6 } { idlePort with waiting := some 0 } =
      .next (q', { ack := true, rdata := scenarioKey, resp := 0#3 })) ∧
    (∃ q', clockEdge { statusPins with rst := true } { idlePort with waiting := some 3 } = .next (q', noAnswer) ∧
      clockEdge statusPins q' =
        .next ({ q' with waiting := some (latency q' statusPins - 1), begun := q'.begun + 1 }, noAnswer)) ∧
    ∃ q' o, clockEdge statusPins { idlePort with waiting := some 0 } = .next (q', o) ∧ o.ack = true ∧
      clockEdge statusPins q' =
        .next ({ q' with waiting := some (latency q' statusPins - 1), begun := q'.begun + 1 }, noAnswer) :=
  ⟨⟨_, rfl⟩, ⟨_, rfl, rfl⟩, _, _, rfl, rfl, rfl⟩

/-- `keyed` with another key, other subkeys and another result, its `STATUS` the same. -/
def otherData : State := { keyed with key := 5#64, sk := Vector.replicate 16 1#48, dout := 9#64 }

/-- Two engines with different data and one `STATUS`, at the edge where a write of `DIN` begins with different data, and
at the edge of its answer. -/
theorem test_witness_no_data (w : Option Nat) (hw : w = none ∨ w = some 0) : ∃ r r' o o',
    statusWord otherData = statusWord keyed ∧
    pinOpcode { statusPins with rw := true, regno := 0x03#6, wdata := 7#64 } =
      pinOpcode { statusPins with rw := true, regno := 0x03#6 } ∧
    clockEdge { statusPins with rw := true, regno := 0x03#6 } { idlePort with waiting := w } = .next (r, o) ∧
    clockEdge { statusPins with rw := true, regno := 0x03#6, wdata := 7#64 }
      { idlePort with waiting := w, engine := otherData } =
      .next (r', o') := by
  rcases hw with rfl | rfl <;> exact ⟨_, _, _, _, rfl, rfl, rfl, rfl⟩

/-- R60: the opcode of a command is on the low wires of `wdata`; other writes and reads have none. -/
theorem test_pin_opcode : pinOpcode { statusPins with rw := true, regno := 0x00#6, wdata := 0x02#64 } = some 0x02#8 ∧
    pinOpcode { statusPins with rw := true, regno := 0x02#6, wdata := 0x02#64 } = none ∧
    pinOpcode { statusPins with regno := 0x00#6 } = none := ⟨rfl, rfl, rfl⟩

/-- R65, R157: a request begun after one that a reset cancelled, or its host dropped, is counted as another, so that
its `T_LAT` is a number of its own. -/
theorem test_latency_not_inherited (rst : Bool) : ∃ q₁ q₂ q₃ o₂,
    clockEdge statusPins idlePort = .next (q₁, noAnswer) ∧
    clockEdge { statusPins with rst := rst, req := false } q₁ = .next (q₂, o₂) ∧
    clockEdge statusPins q₂ = .next (q₃, noAnswer) ∧ q₂.begun = 1 ∧ q₃.begun = 2 := by
  cases rst <;> exact ⟨_, _, _, _, rfl, rfl, rfl, rfl, rfl⟩

end Sys2Proof.Tests
end

section
/-! SUPPORT. What one completed transaction did, as one case analysis over its effects, and the rules of the state
family (spec/10_state.md R16 to R36) read off it. -/

namespace Sys2Proof.Machine

/-! ## The effect of a transaction -/

/-- What a transaction `i` that completes from `s` did, by the state it leaves. `CLR`, `ENC` and `DEC` may also be
spelled as a write of their opcode to `CMD` (R63, assumption log 5), which no well-formed term is. -/
inductive Effect (i : Instr) (s : State) : State → Prop where
  /-- A reset (R145). -/
  | reset (hi : i = .reset) : Effect i s (resetRegisters s)
  /-- `CLR` (R122). -/
  | clear (hi : i = .clr ∨ i = .wrcmd 0x05#8 ∨ i = .wrN 0x00#6 0x05#8) : Effect i s (clearCommand s)
  /-- A `KEYGEN` that succeeded, which only an engine without a key does (R73). -/
  | keyLoaded (k : Block) (hk : s.kv = false) : Effect i s (completeCommand (loadKey k s))
  /-- An `ENC` or `DEC` that succeeded, which only an engine with a key does (R120, R121). -/
  | ciphered (d : Block) (hi : i.wellFormed = true → i = .enc ∨ i = .dec) (hk : s.kv = true) :
      Effect i s (completeCommand { s with dout := d, ov := true })
  /-- `FLUSH` (R83). -/
  | flushed : Effect i s (completeCommand s)
  /-- An error; only `ENC` and `DEC` raise one as a cipher command (R134). -/
  | failed (e : EngineError) (w : Issuer) (hi : w = .cipher → i.wellFormed = true → i = .enc ∨ i = .dec) :
      Effect i s (raiseError e w s)
  /-- `PUSH` (R81). -/
  | pushed (b : Byte) : Effect i s (answer .ok (pushByte b s))
  /-- `WRDIN` (R82). -/
  | loaded (v : Block) : Effect i s (answer .ok (loadOperand v s))
  /-- A legal read (R46). -/
  | valueRead (v : Value) : Effect i s (answer (.value v) s)

/-- A well-formed term for the write of a command's opcode is the command's own row (R61, R63). -/
theorem eq_row_of_wellFormed {i row : Instr} {c : Byte} (hc : isCommandOpcode c = true)
    (hi : i = row ∨ i = .wrcmd c ∨ i = .wrN 0x00#6 c) (hw : i.wellFormed = true) : i = row := by
  obtain rfl | rfl | rfl := hi
  · rfl
  · simp [Instr.wellFormed, hc] at hw
  · exact absurd hw (by simp [Instr.wellFormed, isBadWrite])

theorem keygenCommand_effect (i : Instr) (s : State) : Effect i s (keygenCommand s) := by
  obtain ⟨-, h⟩ | ⟨-, -, h⟩ | ⟨hk, -, k, -, h⟩ := keygenCommand_cases s <;> rw [h]
  · exact .failed _ _ nofun
  · exact .failed _ _ nofun
  · exact .keyLoaded k hk

theorem cipherCommand_effect {i : Instr} (f : Block → Schedule → Block) (s : State)
    (hi : i.wellFormed = true → i = .enc ∨ i = .dec) : Effect i s (cipherCommand f s) := by
  obtain ⟨-, h⟩ | ⟨-, -, h⟩ | ⟨hk, -, b, -, h⟩ := cipherCommand_cases f s <;> rw [h]
  · exact .failed _ _ fun _ => hi
  · exact .failed _ _ fun _ => hi
  · exact .ciphered _ hi hk

/-- Every transaction that completes had one of the effects. -/
theorem exec_effect {i : Instr} {s t : State} (h : exec i s = .next t) : Effect i s t := by
  obtain ⟨hi, rfl⟩ | ⟨rfl, -⟩ | ⟨rfl, hi⟩ | ⟨rfl, hi⟩ | ⟨rfl, -⟩ | ⟨rfl, hi⟩ | ⟨c, -, rfl, -⟩ | ⟨b, rfl, -⟩ |
    ⟨v, -, rfl⟩ | ⟨v, rfl, -⟩ | ⟨n, -, -, rfl⟩ | ⟨n, b, -, -, rfl⟩ := exec_next_cases h
  · exact .reset hi
  · exact keygenCommand_effect i s
  · exact cipherCommand_effect _ s fun hw => .inl (eq_row_of_wellFormed (by decide) hi hw)
  · exact cipherCommand_effect _ s fun hw => .inr (eq_row_of_wellFormed (by decide) hi hw)
  · exact .flushed
  · exact .clear hi
  · exact .failed _ _ nofun
  · exact .pushed b
  · exact .loaded v
  · exact .valueRead v
  · exact .failed _ _ nofun
  · exact .failed _ _ nofun

/-! ## The invariants of R35 -/

/-- The codes of R126 are 1 to 5. -/
theorem EngineError.code_le_five (e : EngineError) : e.code ≤ 5#3 := by
  cases e <;> decide

@[simp] theorem EngineError.code_ne_zero (e : EngineError) : e.code ≠ 0#3 := by
  cases e <;> decide

theorem engineInv_resetRegisters (s : State) : EngineInv (resetRegisters s) where
  scheduleOfKey := nofun
  emptyWithoutKey _ := ⟨rfl, rfl, rfl, rfl⟩
  resultNeedsKey := nofun
  bufferZeroAbove i _ := by simp
  errAtMostFive := by simp
  errRaisesFlag := by simp

/-- The host's record is in no invariant. -/
theorem EngineInv.withHostRecord {s : State} (h : EngineInv s) (ws : List TWord) (as : List Answer) :
    EngineInv { s with trace := ws, answers := as } :=
  { h with }

theorem EngineInv.answer {s : State} (h : EngineInv s) (a : Answer) : EngineInv (answer a s) :=
  h.withHostRecord _ _

theorem engineInv_clearCommand (s : State) : EngineInv (clearCommand s) :=
  (engineInv_resetRegisters s).answer .ok

/-- An operation on the buffer alone keeps the invariants when it keeps item 4. -/
theorem EngineInv.withBuffer {s : State} (h : EngineInv s) {buf : Vector Byte 8} {n : BitVec 4}
    (hbuf : ∀ i : Fin 8, min n.toNat 8 ≤ i.val → buf[i] = 0#8) : EngineInv { s with ibuf := buf, ilen := n } :=
  { h with bufferZeroAbove := hbuf }

theorem EngineInv.consume {s : State} (h : EngineInv s) : EngineInv (consume s) :=
  h.withBuffer fun i _ => by simp

theorem EngineInv.loadOperand {s : State} (h : EngineInv s) (v : Block) : EngineInv (loadOperand v s) :=
  h.withBuffer fun i hi => absurd i.isLt (Nat.not_lt.mpr hi)

/-- A byte is stored at `ILEN` and counted there, so every byte from the new length up is an old one (R81). -/
theorem EngineInv.pushByte {s : State} (h : EngineInv s) (b : Byte) : EngineInv (pushByte b s) := by
  refine h.withBuffer fun i hi => ?_
  have hn := satIncr_toNat s.ilen
  have hold : s.ibuf[i] = 0#8 := h.bufferZeroAbove i (by omega)
  split
  case isFalse => exact hold
  case isTrue hl =>
    have hne : s.ilen.toNat ≠ i.val := by omega
    simpa [Vector.getElem_set_ne _ _ hne] using hold

/-- A command that ends with `ERR` zero leaves an empty buffer and no code (R73, R83, R120). -/
theorem EngineInv.completeCommand {s : State} (h : EngineInv s) : EngineInv (completeCommand s) :=
  { h.consume.answer .ok with errAtMostFive := by simp, errRaisesFlag := by simp }

theorem EngineInv.loadKey {s : State} (h : EngineInv s) (k : Block) : EngineInv (loadKey k s) :=
  { h with scheduleOfKey := fun _ => rfl, emptyWithoutKey := nofun, resultNeedsKey := fun _ => rfl }

/-- A result is valid in an engine with a key. -/
theorem EngineInv.withResult {s : State} (h : EngineInv s) (hk : s.kv = true) (d : Block) :
    EngineInv { s with dout := d, ov := true } :=
  { h with
    emptyWithoutKey := fun hk' => absurd hk (by simpa using hk')
    resultNeedsKey := fun _ => hk }

/-- An error writes one of the five codes with the flag, and at most empties the buffer and clears `OV` (R134). -/
theorem EngineInv.raiseError {s : State} (h : EngineInv s) (e : EngineError) (w : Issuer) :
    EngineInv (raiseError e w s) where
  scheduleOfKey := h.scheduleOfKey
  emptyWithoutKey hk := by
    obtain ⟨hkey, hsk, hov, hdout⟩ := h.emptyWithoutKey hk
    simp [hkey, hsk, hov, hdout]
  resultNeedsKey hov := by
    have hkeeps : w ≠ .cipher ∧ s.ov = true := by simpa using hov
    exact h.resultNeedsKey hkeeps.2
  bufferZeroAbove i hi := by
    cases he : e.consumes with
    | true => simp [he]
    | false => simpa [he] using h.bufferZeroAbove i (by simpa [he] using hi)
  errAtMostFive := e.code_le_five
  errRaisesFlag _ := rfl

/-- Every effect keeps the invariants, so every transaction does. -/
theorem EngineInv.exec {i : Instr} {s t : State} (hs : EngineInv s) (h : exec i s = .next t) : EngineInv t := by
  cases exec_effect h with
  | reset => exact engineInv_resetRegisters s
  | clear => exact engineInv_clearCommand s
  | keyLoaded k => exact (hs.loadKey k).completeCommand
  | ciphered d _ hk => exact (hs.withResult hk d).completeCommand
  | flushed => exact hs.completeCommand
  | failed e w => exact hs.raiseError e w
  | pushed b => exact (hs.pushByte b).answer .ok
  | loaded v => exact (hs.loadOperand v).answer .ok
  | valueRead v => exact hs.answer (.value v)

/-- Settles O25: a step runs one transaction on the state with its words taken off, or changes nothing, and every
transaction keeps the invariants. -/
theorem stepKeepsInvariants : Obligations.StepKeepsInvariants := by
  unfold Obligations.StepKeepsInvariants
  intro s t hs hstep
  obtain ⟨i, rest, -, hexec⟩ | ⟨-, rfl⟩ := step_next_cases hstep
  · exact (hs.withHostRecord rest s.answers).exec hexec
  · exact hs

/-- Settles O24: the reset state is what a reset leaves, whatever the host has still to issue. -/
theorem resetMeetsInvariants : Obligations.ResetMeetsInvariants := by
  unfold Obligations.ResetMeetsInvariants
  intro ws
  exact engineInv_resetRegisters { State.reset with trace := ws }

theorem Reachable.engineInv {s : State} (h : Reachable s) : EngineInv s := by
  induction h with
  | reset ws => exact resetMeetsInvariants ws
  | transaction i s t _ hexec ih => exact ih.exec hexec

/-- Settles O26: a reachable state meets `EngineInv`, here with the schedule written out entry by entry. -/
theorem reachableStatesMeetInvariants : Obligations.ReachableStatesMeetInvariants := by
  unfold Obligations.ReachableStatesMeetInvariants
  intro s hs
  have inv := hs.engineInv
  refine ⟨fun hk i => ?_, fun hk => ?_, inv.resultNeedsKey, by omega, inv.bufferZeroAbove, inv.errAtMostFive,
    inv.errRaisesFlag, by simp⟩
  · simp [inv.scheduleOfKey hk]
  · obtain ⟨hkey, hsk, hov, hdout⟩ := inv.emptyWithoutKey hk
    exact ⟨hkey, fun i => by simp [hsk], hov, hdout⟩

/-! ## The key lock and the flags -/

/-- Settles O20: the one effect that writes a key needs an engine without one. -/
theorem loadedKeyIsImmutable : Obligations.LoadedKeyIsImmutable := by
  unfold Obligations.LoadedKeyIsImmutable
  intro i s t h hk
  cases exec_effect h with
  | reset hi => exact .inr (.inl hi)
  | clear hi => exact .inr (.inr hi)
  | keyLoaded k hno => exact absurd hk (by simp [hno])
  | ciphered | flushed | failed | pushed | loaded | valueRead => exact .inl ⟨rfl, rfl, hk⟩

/-- Settles O21: reset and `CLR` clear the flag, an error writes a non-zero code with it, and every other effect
leaves the flag and gives `ERR` no new code but 0. -/
theorem errorFlagIsSticky : Obligations.ErrorFlagIsSticky := by
  unfold Obligations.ErrorFlagIsSticky
  intro i s t hw h
  cases exec_effect h with
  | reset hi => exact ⟨fun _ _ => .inl hi, fun _ herr => absurd rfl herr, nofun⟩
  | clear hi =>
    exact ⟨fun _ _ => .inr (eq_row_of_wellFormed (by decide) hi hw), fun _ herr => absurd rfl herr, nofun⟩
  | failed e w => exact ⟨nofun, fun _ _ => rfl, fun _ _ => e.code_ne_zero⟩
  | keyLoaded | ciphered | flushed | pushed | loaded | valueRead => simp +contextual

/-! ## The result of a cipher command -/

/-- `ENC` and `DEC` are the cipher command of one function, the same in every state (R120, R121). -/
theorem exec_cipher {i : Instr} (hi : i = .enc ∨ i = .dec) :
    ∃ f, ∀ s, exec i s = .next (cipherCommand f s) := by
  obtain rfl | rfl := hi
  · exact ⟨encodeSK Config.tables, fun _ => rfl⟩
  · exact ⟨decodeSK Config.tables, fun _ => rfl⟩

/-- A cipher command leaves a valid result exactly when it answers `OK` (R24). -/
theorem cipherCommand_ov_iff (f : Block → Schedule → Block) (s : State) :
    (cipherCommand f s).ov = true ↔ (cipherCommand f s).answers = s.answers ++ [.ok] := by
  obtain ⟨-, h⟩ | ⟨-, -, h⟩ | ⟨-, -, b, -, h⟩ := cipherCommand_cases f s <;> simp [h]

/-- A cipher command that answers `OK` had a whole operand, and its result is the function of that and `SK`. -/
theorem cipherCommand_of_ok {f : Block → Schedule → Block} {s : State}
    (hok : (cipherCommand f s).answers = s.answers ++ [.ok]) :
    s.ilen = 8#4 ∧ ∃ b, operand s = .ok b ∧ (cipherCommand f s).dout = f b s.sk := by
  obtain ⟨-, h⟩ | ⟨-, -, h⟩ | ⟨-, hl, b, ho, h⟩ := cipherCommand_cases f s
  · simp [h] at hok
  · simp [h] at hok
  · exact ⟨hl, b, ho, by simp [h]⟩

/-- The operand is read from the buffer and its length alone (R79). -/
theorem operand_congr {s t : State} (hl : s.ilen = t.ilen) (hb : s.ibuf = t.ibuf) : operand s = operand t := by
  simp only [operand, hl, hb]

/-- Settles O22: what `ENC` and `DEC` do to `OV` is their answer's, and of the other effects only those of reset and
`CLR` write `OV` or `DOUT`. -/
theorem outputValidTracksLastCipherCommand : Obligations.OutputValidTracksLastCipherCommand := by
  unfold Obligations.OutputValidTracksLastCipherCommand
  intro i s t hw h
  refine ⟨fun hi => ?_, fun hi => ?_, fun henc hdec hreset hclr => ?_⟩
  · obtain ⟨f, hf⟩ := exec_cipher hi
    obtain rfl : cipherCommand f s = t := by simpa [hf] using h
    exact cipherCommand_ov_iff f s
  · obtain rfl | rfl := hi <;> cases h <;> rfl
  · have hcipher : ¬ (i = .enc ∨ i = .dec) := by simp [henc, hdec]
    cases exec_effect h with
    | reset hi => exact absurd hi hreset
    | clear hi => exact absurd (eq_row_of_wellFormed (by decide) hi hw) hclr
    | ciphered _ hi => exact absurd (hi hw) hcipher
    | failed e w hi =>
      have hne : w ≠ .cipher := fun hc => hcipher (hi hc hw)
      simp [hne]
    | keyLoaded | flushed | pushed | loaded | valueRead => exact ⟨rfl, rfl⟩

/-- Settles O23: both commands had the whole of the same buffer as their operand, and one function gives both
results. -/
theorem resultDependsOnScheduleAndOperandOnly : Obligations.ResultDependsOnScheduleAndOperandOnly := by
  unfold Obligations.ResultDependsOnScheduleAndOperandOnly
  intro i s t s' t' hi hs ht hsok htok hsk hbuf
  obtain ⟨f, hf⟩ := exec_cipher hi
  obtain rfl : cipherCommand f s = s' := by simpa [hf] using hs
  obtain rfl : cipherCommand f t = t' := by simpa [hf] using ht
  obtain ⟨hsl, b, hsb, hsd⟩ := cipherCommand_of_ok hsok
  obtain ⟨htl, c, htc, htd⟩ := cipherCommand_of_ok htok
  have hbc : b = c := by
    rw [operand_congr (hsl.trans htl.symm) hbuf, htc] at hsb
    exact (Except.ok.inj hsb).symm
  rw [hsd, htd, hbc, hsk]

/-! ## The views and the reset values -/

/-- The number of two joined words. -/
theorem toNat_append_eq_add {m n : Nat} (x : BitVec m) (y : BitVec n) :
    (x ++ y).toNat = x.toNat * 2 ^ n + y.toNat := by
  rw [BitVec.toNat_append, ← Nat.shiftLeft_add_eq_or_of_lt y.isLt, Nat.shiftLeft_eq]

/-- The `STATUS` view as a sum of its fields at their places (R27). -/
theorem statusWord_toNat (s : State) : (statusWord s).toNat =
    s.kv.toNat + 2 * s.ov.toNat + 4 * s.eflag.toNat + 16 * s.err.toNat + 256 * s.ilen.toNat := by
  unfold statusWord
  simp only [toNat_append_eq_add, BitVec.toNat_ofBool, BitVec.toNat_ofNat]
  omega

@[simp] theorem statusWord_getLsbD_three (s : State) : (statusWord s).getLsbD 3 = false := by
  simp only [statusWord, BitVec.getLsbD_append]
  simp

@[simp] theorem statusWord_getLsbD_seven (s : State) : (statusWord s).getLsbD 7 = false := by
  simp only [statusWord, BitVec.getLsbD_append]
  simp

/-- The fields end below bit 12. -/
theorem statusWord_toNat_lt (s : State) : (statusWord s).toNat < 2 ^ 12 := by
  have hkv := s.kv.toNat_le
  have hov := s.ov.toNat_le
  have heflag := s.eflag.toNat_le
  rw [statusWord_toNat]
  omega

@[simp] theorem statusWord_extractLsb'_twelve (s : State) : (statusWord s).extractLsb' 12 4 = 0#4 := by
  apply BitVec.eq_of_toNat_eq
  rw [BitVec.extractLsb'_toNat, Nat.shiftRight_eq_div_pow, Nat.div_eq_of_lt (statusWord_toNat_lt s)]
  rfl

/-- Settles O10: the view is the sum of its fields, and the bits reserved between them are 0. -/
theorem readStatusAnswersView : Obligations.ReadStatusAnswersView := by
  unfold Obligations.ReadStatusAnswersView
  intro s
  exact ⟨statusWord s, rfl, statusWord_toNat s, statusWord_getLsbD_three s, statusWord_getLsbD_seven s,
    statusWord_extractLsb'_twelve s⟩

/-- `CLR` leaves the registers that a reset leaves, which are those of the reset state (R36, R122). -/
theorem sameRegisters_resetRegisters (s : State) : SameRegisters (resetRegisters s) State.reset := by
  simp [SameRegisters, State.reset]

theorem sameRegisters_clearCommand (s : State) : SameRegisters (clearCommand s) State.reset :=
  sameRegisters_resetRegisters s

/-- The view `STATUS` reads registers alone (R27). -/
theorem SameRegisters.statusWord_eq {s t : State} (h : SameRegisters s t) : statusWord s = statusWord t := by
  obtain ⟨-, hkv, -, -, hilen, -, hov, herr, heflag⟩ := h
  exact (statusWord_eq_iff s t).mpr ⟨hilen, herr, heflag, hov, hkv⟩

/-- Settles O1: all three states have the registers of the reset state, and those and their views are zero. -/
theorem resetAndClearLeaveZero : Obligations.ResetAndClearLeaveZero := by
  unfold Obligations.ResetAndClearLeaveZero
  intro s
  refine ⟨resetRegisters s, clearCommand s, rfl, rfl, fun x hx => ?_, rfl, rfl, rfl, rfl⟩
  have hzero : SameRegisters x State.reset := by
    obtain rfl | rfl | rfl := hx
    · exact sameRegisters_resetRegisters s
    · exact sameRegisters_clearCommand s
    · simp [SameRegisters]
  have hstatus : statusWord x = 0x0000#16 := hzero.statusWord_eq.trans (by decide)
  obtain ⟨hkey, hkv, hsk, hibuf, hilen, hdout, hov, herr, heflag⟩ := hzero
  refine ⟨hkey, hkv, fun i => ?_, fun i => ?_, hilen, hdout, hov, herr, heflag, hstatus, fun i => ?_⟩
  · simp [hsk, State.reset]
  · simp [hibuf, State.reset]
  · simp [hdout, State.reset, blockByte]

end Sys2Proof.Machine
end

section
/-! SUPPORT. The rules of the memory family (spec/20_memory.md R37 to R53): the register map read and written by
number, reads without side effects, the two views of the result, and engines side by side. -/

namespace Sys2Proof.Machine

/-! ## Reads through the register map -/

/-- A `RegRead` reads its register number (R54). -/
theorem transact_regRead (n : Regno) (s : State) : transact (.regRead n) s = .next (readNumber n s) :=
  exec_readRow n s

/-- The read of a number that selects a readable register. -/
theorem readNumber_of_readReg {n : Regno} {r : Reg} {v : Value} {s : State} (hn : regOfNumber n = some r)
    (hv : readReg s r = some v) : readNumber n s = answer (.value v) s := by
  simp [readNumber, hn, hv]

/-- The read of a number that R131 lists. -/
theorem readNumber_of_isBadRead {n : Regno} (h : isBadRead n = true) (s : State) :
    readNumber n s = raiseError .badAccess .read s := by
  simp [readNumber, (isBadRead_iff n s).mp h]

/-- The readable part of the register map, by number (R39), and the rest of the 64 numbers (R131). -/
theorem regOfNumber_read_cases (n : Regno) :
    (n.toNat = 0x01 ∧ regOfNumber n = some .status) ∨
    (n.toNat = 0x04 ∧ regOfNumber n = some .dout) ∨
    (n.toNat = 0x05 ∧ regOfNumber n = some .key) ∨
    (∃ i : BitVec 3, n.toNat = 0x08 + i.toNat ∧ regOfNumber n = some (.obyte i)) ∨
    (∃ i : BitVec 4, n.toNat = 0x10 + i.toNat ∧ regOfNumber n = some (.sk i)) ∨
    ((n.toNat ∈ [0x00, 0x02, 0x03, 0x06, 0x07] ∨ 0x20 ≤ n.toNat) ∧ isBadRead n = true) := by
  revert n; decide

/-- Settles O36: the read of each number of the map gives its register, and R131 lists all the others. -/
theorem regReadFollowsRegisterMap : Obligations.RegReadFollowsRegisterMap := by
  unfold Obligations.RegReadFollowsRegisterMap
  intro s n
  refine ⟨_, transact_regRead n s, ?_⟩
  obtain ⟨hn, hr⟩ | ⟨hn, hr⟩ | ⟨hn, hr⟩ | ⟨i, hn, hr⟩ | ⟨i, hn, hr⟩ | ⟨hn, hbad⟩ := regOfNumber_read_cases n
  · simp [hn, readNumber_of_readReg hr rfl]
  · simp [hn, readNumber_of_readReg hr rfl]
  · simp [hn, readNumber_of_readReg hr rfl]
  · have hplace : 0x0F - n.toNat = 7 - i.toNat := by omega
    rw [if_neg (by omega), if_neg (by omega), if_neg (by omega), if_pos (by omega), hplace]
    exact readNumber_of_readReg hr rfl
  · have hindex : n.toNat - 0x10 = i.toNat := by omega
    rw [if_neg (by omega), if_neg (by omega), if_neg (by omega), if_neg (by omega), dif_pos (by omega)]
    simp only [hindex]
    exact readNumber_of_readReg hr rfl
  · simp only [List.mem_cons, List.not_mem_nil, or_false] at hn
    rw [if_neg (by omega), if_neg (by omega), if_neg (by omega), if_neg (by omega), dif_neg (by omega)]
    exact readNumber_of_isBadRead hbad s

/-! ## Reads have no side effect -/

/-- An answer is in the host's record and in no register. -/
theorem sameRegisters_answer (a : Answer) (s : State) : SameRegisters s (answer a s) := by
  simp [SameRegisters]

/-- What a read gives depends on the registers alone. -/
theorem SameRegisters.readReg_eq {s t : State} (h : SameRegisters s t) (r : Reg) : readReg s r = readReg t r := by
  have hstatus := h.statusWord_eq
  obtain ⟨hkey, -, hsk, -, -, hdout, -⟩ := h
  cases r <;> simp only [readReg, hstatus, hdout, hkey, hsk]

/-- A read that answered a value found it in a readable register (R46). -/
theorem readNumber_of_value {n : Regno} {s : State} {v : Value}
    (h : (readNumber n s).answers = s.answers ++ [.value v]) :
    ∃ r, regOfNumber n = some r ∧ readReg s r = some v ∧ readNumber n s = answer (.value v) s := by
  obtain ⟨r, v', hr, hv, hx⟩ | ⟨-, hx⟩ := readNumber_cases n s
  · obtain rfl : v' = v := by simpa [hx] using h
    exact ⟨r, hr, hv, hx⟩
  · simp [hx] at h

/-- Settles O19: the first read leaves the registers, and so the second finds the same value in the same register. -/
theorem readsHaveNoSideEffect : Obligations.ReadsHaveNoSideEffect := by
  unfold Obligations.ReadsHaveNoSideEffect
  intro n s t v hread hvalue
  obtain rfl : readNumber n s = t := by simpa [exec_readRow] using hread
  obtain ⟨r, hr, hv, hx⟩ := readNumber_of_value hvalue
  rw [hx]
  have hsame := sameRegisters_answer (.value v) s
  have hagain : readNumber n (answer (.value v) s) = answer (.value v) (answer (.value v) s) :=
    readNumber_of_readReg hr ((hsame.readReg_eq r).symm.trans hv)
  exact ⟨hsame, _, (exec_readRow n _).trans (congrArg _ hagain), rfl, hsame⟩

/-! ## The two views of the result -/

/-- A block is what its bytes make (R77). -/
theorem bytesToBlock_blockToBytes (b : Block) : bytesToBlock (blockToBytes b).toList = .ok b := by
  simp only [bytesToBlock_toList, blockToBytes_getElem, joined_blockBytes]

/-- Reads of result bytes, in any number and order, answer those bytes of the one `DOUT` (R84, R46). -/
theorem runProgram_rdObyte (is : List (BitVec 3)) (s : State) :
    runProgram (is.map .rdObyte) s =
      .next { s with answers := s.answers ++ is.map fun i => .value (.byte (blockByte s.dout i.toNat)) } := by
  induction is generalizing s with
  | nil => simp [runProgram]
  | cons i is ih =>
    have hread : exec (.rdObyte i) s = .next (answer (.value (.byte (blockByte s.dout i.toNat))) s) := rfl
    simp [runProgram, hread, ih, answer]

/-- Settles O12: the bytes answered are those of `DOUT`, first byte first, and make it again. -/
theorem outputViewsAgree : Obligations.OutputViewsAgree := by
  unfold Obligations.OutputViewsAgree
  intro s
  refine ⟨blockToBytes s.dout, ?_, bytesToBlock_blockToBytes s.dout⟩
  have hprogram : rdbytes = [0#3, 1#3, 2#3, 3#3, 4#3, 5#3, 6#3, 7#3].map .rdObyte := rfl
  rw [hprogram, runProgram_rdObyte, toList_eight]
  simp

/-! ## Writes through the register map -/

/-- A `RegWrite` that the port accepts is its row (R63). -/
theorem transact_regWrite_of_ok {n : Regno} {v : Block} {i : Instr} (h : writeRow n v = .ok i) (s : State) :
    transact (.regWrite n v) s = exec i s := by
  simp [transact, rowOf, h]

theorem transact_regWrite_of_error {n : Regno} {v : Block} {r : Refusal} (h : writeRow n v = .error r) (s : State) :
    transact (.regWrite n v) s = .refused r := by
  simp [transact, rowOf, h]

/-- R131's list of bad writes, by number. -/
theorem isBadWrite_iff_toNat (n : Regno) : isBadWrite n = true ↔ n.toNat = 0x01 ∨ 0x04 ≤ n.toNat := by
  revert n; decide

/-- `WR n, b` for a number that R131 lists. -/
theorem exec_wrN_of_isBadWrite {n : Regno} (h : isBadWrite n = true) (b : Byte) (s : State) :
    exec (.wrN n b) s = .next (raiseError .badAccess .write s) := by
  obtain ⟨rfl, -⟩ | ⟨rfl, -⟩ | ⟨rfl, -⟩ | ⟨-, hw⟩ := writeByte_cases Config.tables n b s
  · exact absurd h (by decide)
  · exact absurd h (by decide)
  · exact absurd h (by decide)
  · simp only [exec, execWrN, hw]

/-- Data that is 8 bits wide is its low byte with the upper wires 0 (R65). -/
theorem extractLsb'_eq_iff_of_lt {v : Block} (h : v.toNat < 256) (c : Byte) :
    v.extractLsb' 0 8 = c ↔ v = c.setWidth 64 := by
  simp only [← BitVec.toNat_inj, BitVec.extractLsb'_toNat, Nat.shiftRight_zero, BitVec.toNat_setWidth]
  omega

/-- The row of a command write by its 64-bit data (R60, R65). -/
theorem commandRow_of_lt {v : Block} (h : v.toNat < 256) :
    commandRow (v.extractLsb' 0 8) =
      if v = 0x01#64 then .keygen
      else if v = 0x02#64 then .enc
      else if v = 0x03#64 then .dec
      else if v = 0x04#64 then .flush
      else if v = 0x05#64 then .clr
      else .wrcmd (v.extractLsb' 0 8) := by
  simp only [commandRow, extractLsb'_eq_iff_of_lt h, BitVec.reduceSetWidth]

/-- Settles O52: each write is its row by number and data; a bad one raises `BadAccess`. -/
theorem regWriteFollowsRegisterMap : Obligations.RegWriteFollowsRegisterMap := by
  unfold Obligations.RegWriteFollowsRegisterMap
  intro s n v
  obtain ⟨rfl, hv, hw⟩ | ⟨rfl, hv, hw⟩ | ⟨hn, hv, hw⟩ | ⟨rfl, hw⟩ | ⟨hbad, hw⟩ := writeRow_cases n v
  · have hrow := transact_regWrite_of_ok hw s
    rw [commandRow_of_lt hv] at hrow
    rw [if_pos (by decide), if_pos hv]
    split_ifs at hrow ⊢ <;> exact hrow
  · rw [if_neg (by decide), if_pos (by decide), if_pos hv]
    exact transact_regWrite_of_ok hw s
  · have hrefused := transact_regWrite_of_error hw s
    have hopcode : ∀ c : Block, c.toNat < 256 → v ≠ c := by rintro _ hc rfl; omega
    obtain rfl | rfl := hn
    · simp [hopcode, hrefused, Nat.not_lt.mpr hv]
    · rw [if_neg (by decide), if_pos (by decide), if_neg (by omega)]
      exact hrefused
  · exact transact_regWrite_of_ok hw s
  · have hn := (isBadWrite_iff_toNat n).mp hbad
    rw [if_neg (by omega), if_neg (by omega), if_neg (by omega)]
    exact ⟨transact_regWrite_of_ok hw s, _, exec_wrN_of_isBadWrite hbad _ s, rfl, rfl⟩

/-! ## Engines side by side -/

/-- All that a step of engine `k` can do to the list of engines (R53): there is none, or it alone takes its step. -/
theorem stepInstance_next_iff (k : Nat) (ss ts : List State) :
    stepInstance k ss = .next ts ↔
      (ss[k]? = none ∧ ts = ss) ∨ ∃ s t, ss[k]? = some s ∧ step s = .next t ∧ ts = ss.set k t := by
  unfold stepInstance
  cases ss[k]? with
  | none => simp [eq_comm]
  | some s => cases hs : step s <;> simp [hs, eq_comm]

/-- A step of one engine leaves the states of the others. -/
theorem stepInstance_getElem?_of_ne {k j : Nat} {ss ts : List State} (h : stepInstance k ss = .next ts)
    (hjk : j ≠ k) : ts[j]? = ss[j]? := by
  obtain ⟨-, rfl⟩ | ⟨s, t, -, -, rfl⟩ := (stepInstance_next_iff k ss ts).mp h
  · rfl
  · exact List.getElem?_set_ne hjk.symm

/-- Settles O49: each of two engines takes the same step whether the other has taken its own or not, and the two
changes of the list commute. -/
theorem instancesAreIndependent : Obligations.InstancesAreIndependent := by
  unfold Obligations.InstancesAreIndependent
  refine ⟨fun k j ss ts h hjk => stepInstance_getElem?_of_ne h hjk, fun k j ss ts us hjk hk hj => ?_⟩
  have hsame := stepInstance_getElem?_of_ne hk hjk
  obtain ⟨hnone, rfl⟩ | ⟨a, b, ha, hab, rfl⟩ := (stepInstance_next_iff j ts us).mp hj
  · exact ⟨ss, (stepInstance_next_iff j ss ss).mpr (.inl ⟨hsame.symm.trans hnone, rfl⟩), hk⟩
  · have hfirst : stepInstance j ss = .next (ss.set j b) :=
      (stepInstance_next_iff _ _ _).mpr (.inr ⟨a, b, hsame.symm.trans ha, hab, rfl⟩)
    have hkept : (ss.set j b)[k]? = ss[k]? := stepInstance_getElem?_of_ne hfirst hjk.symm
    refine ⟨_, hfirst, (stepInstance_next_iff _ _ _).mpr ?_⟩
    obtain ⟨hnone, rfl⟩ | ⟨s, t, hs, hst, rfl⟩ := (stepInstance_next_iff k ss ts).mp hk
    · exact .inl ⟨hkept.trans hnone, rfl⟩
    · exact .inr ⟨s, t, hkept.trans hs, hst, List.set_comm t b hjk.symm⟩

end Sys2Proof.Machine
end

section
/-! SUPPORT. The rules of the encoding family (spec/30_encoding.md R56 to R63): each row of the opcode map has its own
words, the decoder reads back exactly these, and a step and the trace decoder follow it; rows and transactions match;
and the wires of the port answer a held request. -/

namespace Sys2Proof

open Sys2Proof.Laws

/-! ## The words of a row -/

/-- The first word of a row, from its fields (R56). -/
def Instr.firstWord (i : Instr) : TWord :=
  wordOf (Layout.fields i).1 (Layout.fields i).2.1 (Layout.fields i).2.2.1 (Layout.fields i).2.2.2

/-- The layout law holds of every row. -/
theorem layout_statement : ∀ i : Instr, Layout.Statement i
  | .reset => Layout.reset
  | .keygen => Layout.keygen
  | .enc => Layout.enc
  | .dec => Layout.dec
  | .flush => Layout.flush
  | .clr => Layout.clr
  | .wrcmd c => Layout.wrcmd c
  | .push b => Layout.push b
  | .wrdin v => Layout.wrdin v
  | .malformed83 x => Layout.malformed83 x
  | .rdStatus => Layout.rdStatus
  | .rdDout => Layout.rdDout
  | .rdKey => Layout.rdKey
  | .rdObyte i => Layout.rdObyte i
  | .rdSk i => Layout.rdSk i
  | .rdN n => Layout.rdN n
  | .malformedRead n d => Layout.malformedRead n d
  | .wrN n b => Layout.wrN n b
  | .malformedZ rw n d => Layout.malformedZ rw n d

theorem encode_length_pos (i : Instr) : 0 < (encode i).length := by
  obtain ⟨payload, -, h⟩ := layout_statement i
  simp [h]

/-- Every row but `WRDIN` is one word (R57). -/
theorem encode_of_ne_wrdin {i : Instr} (hi : ∀ v, i ≠ .wrdin v) : encode i = [i.firstWord] := by
  obtain ⟨payload, hlength, h⟩ := layout_statement i
  have hnone : Layout.payloadLength i = 0 := by
    cases i with
    | wrdin v => exact absurd rfl (hi v)
    | _ => rfl
  rw [hnone, List.length_eq_zero_iff] at hlength
  rw [h, hlength, Instr.firstWord]

/-- The word that a payload follows (R57), by its fields. -/
theorem wordOf_wrdin : wordOf true false 0x03#6 0x00#8 = 0x8300#16 := by decide

/-! ## Decode and encode -/

/-- What the test order of R61 leaves to the row `RD n`. -/
theorem not_owned_of_isBadRead {n : Regno} (h : isBadRead n = true) :
    n ≠ 0x01#6 ∧ n ≠ 0x04#6 ∧ n ≠ 0x05#6 ∧ n &&& 0b111000#6 ≠ 0b001000#6 ∧ n &&& 0b110000#6 ≠ 0b010000#6 := by
  revert n; decide

theorem ne_writable_of_isBadWrite {n : Regno} (h : isBadWrite n = true) : n ≠ 0x00#6 ∧ n ≠ 0x02#6 ∧ n ≠ 0x03#6 := by
  revert n; decide

/-- The register numbers of the read rows, by R61's test order: the row `RD n` keeps just R131's list (R39). -/
theorem regno_read_cases (n : Regno) :
    n = 0x01#6 ∨ n = 0x04#6 ∨ n = 0x05#6 ∨ (∃ i : BitVec 3, n = 0b001#3 ++ i) ∨ (∃ i : BitVec 4, n = 0b01#2 ++ i) ∨
      isBadRead n = true := by
  revert n; decide

theorem regno_write_cases (n : Regno) : n = 0x00#6 ∨ n = 0x02#6 ∨ n = 0x03#6 ∨ isBadWrite n = true := by
  revert n; decide

/-- The last row leaves the reset marker to `RESET` (R59). -/
theorem wellFormed_malformedZ_iff (rw : Bool) (n : Regno) (d : Byte) :
    (Instr.malformedZ rw n d).wellFormed = true ↔ ¬(rw = true ∧ n = 0x00#6 ∧ d = 0x00#8) := by
  simp only [Instr.wellFormed, Bool.not_eq_true', ← Bool.not_eq_true, Bool.and_eq_true, beq_iff_eq, and_assoc]

/-- The decoder reads the word of a row that the opcode map spells as that row: no earlier row takes it (R61). -/
theorem decodeWord_firstWord {i : Instr} (hw : i.wellFormed = true) (hi : ∀ v, i ≠ .wrdin v) :
    decodeWord i.firstWord = i := by
  rw [Instr.firstWord, decodeWord_wordOf]
  cases i with
  | wrdin v => exact absurd rfl (hi v)
  | wrcmd c => simp_all [Layout.fields, Instr.wellFormed, isCommandOpcode]
  | rdObyte i => clear hw hi; revert i; decide
  | rdSk i => clear hw hi; revert i; decide
  | rdN n =>
    obtain ⟨h1, h4, h5, hbyte, hsk⟩ := not_owned_of_isBadRead hw
    simp [Layout.fields, h1, h4, h5, hbyte, hsk]
  | malformedRead n d =>
    have hd : d ≠ 0x00#8 := bne_iff_ne.mp hw
    exact if_pos hd
  | wrN n b =>
    obtain ⟨h0, h2, h3⟩ := ne_writable_of_isBadWrite hw
    simp [Layout.fields, h0, h2, h3]
  | malformedZ rw n d => exact if_neg ((wellFormed_malformedZ_iff rw n d).mp hw)
  | _ => rfl

/-- No other row has the word of `WRDIN` (R61). -/
theorem firstWord_ne_wrdin {i : Instr} (hw : i.wellFormed = true) (hi : ∀ v, i ≠ .wrdin v) :
    i.firstWord ≠ 0x8300#16 := by
  intro h
  have hrow := decodeWord_firstWord hw hi
  rw [h, show decodeWord 0x8300#16 = .malformed83 0x00#8 by decide] at hrow
  exact absurd hw (by simp [← hrow, Instr.wellFormed])

/-- Settles O31: `WRDIN` is read with its payload, every other row from its one word. -/
theorem decodeOfEncodeIsTransaction : Obligations.DecodeOfEncodeIsTransaction := by
  unfold Obligations.DecodeOfEncodeIsTransaction
  intro i rest hw
  by_cases hi : ∀ v, i ≠ .wrdin v
  · rw [encode_of_ne_wrdin hi, List.singleton_append, decode_word (firstWord_ne_wrdin hw hi),
      decodeWord_firstWord hw hi]
  · obtain ⟨v, rfl⟩ := not_forall_not.mp hi
    exact decode_payloadWords v rest

/-- The five opcodes of R60 have rows of their own, any other is `WRCMD`. -/
theorem exists_command_firstWord_eq (c : Byte) :
    ∃ i : Instr, i.wellFormed = true ∧ (∀ v, i ≠ .wrdin v) ∧ i.firstWord = wordOf true false 0x00#6 c := by
  by_cases hc : isCommandOpcode c = true
  · simp only [isCommandOpcode, Bool.or_eq_true, beq_iff_eq] at hc
    obtain (((rfl | rfl) | rfl) | rfl) | rfl := hc
    · exact ⟨.keygen, rfl, nofun, rfl⟩
    · exact ⟨.enc, rfl, nofun, rfl⟩
    · exact ⟨.dec, rfl, nofun, rfl⟩
    · exact ⟨.flush, rfl, nofun, rfl⟩
    · exact ⟨.clr, rfl, nofun, rfl⟩
  · exact ⟨.wrcmd c, by simp [Instr.wellFormed, hc], nofun, rfl⟩

/-- The rows cover all words (R61): every word but that of `WRDIN` is the word of a row that the opcode map spells. -/
theorem exists_firstWord_eq {w : TWord} (h : w ≠ 0x8300#16) :
    ∃ i : Instr, i.wellFormed = true ∧ (∀ v, i ≠ .wrdin v) ∧ i.firstWord = w := by
  rw [← wordOf_fields w] at h ⊢
  generalize TWord.rw w = rw, TWord.z w = z, TWord.regno w = n, TWord.d8 w = d at h ⊢
  match z, rw with
  | true, rw =>
    by_cases hz : rw = true ∧ n = 0x00#6 ∧ d = 0x00#8
    · obtain ⟨rfl, rfl, rfl⟩ := hz
      exact ⟨.reset, rfl, nofun, rfl⟩
    · exact ⟨.malformedZ rw n d, (wellFormed_malformedZ_iff rw n d).mpr hz, nofun, rfl⟩
  | false, true =>
    obtain rfl | rfl | rfl | hn := regno_write_cases n
    · exact exists_command_firstWord_eq d
    · exact ⟨.push d, rfl, nofun, rfl⟩
    · have hd : d ≠ 0x00#8 := by rintro rfl; exact h wordOf_wrdin
      exact ⟨.malformed83 d, bne_iff_ne.mpr hd, nofun, rfl⟩
    · exact ⟨.wrN n d, hn, nofun, rfl⟩
  | false, false =>
    by_cases hd : d = 0x00#8
    · subst hd
      obtain rfl | rfl | rfl | ⟨i, rfl⟩ | ⟨i, rfl⟩ | hn := regno_read_cases n
      · exact ⟨.rdStatus, rfl, nofun, rfl⟩
      · exact ⟨.rdDout, rfl, nofun, rfl⟩
      · exact ⟨.rdKey, rfl, nofun, rfl⟩
      · exact ⟨.rdObyte i, rfl, nofun, rfl⟩
      · exact ⟨.rdSk i, rfl, nofun, rfl⟩
      · exact ⟨.rdN n, hn, nofun, rfl⟩
    · exact ⟨.malformedRead n d, bne_iff_ne.mpr hd, nofun, rfl⟩

/-- Settles O32: a word is the word of one row, which the decoder reads it as, and 0x8300 with its payload is
`WRDIN`. -/
theorem encodeOfDecodeIsWords : Obligations.EncodeOfDecodeIsWords := by
  unfold Obligations.EncodeOfDecodeIsWords
  refine ⟨fun ws rest i h => ?_, fun w hw rest => ⟨_, decode_word hw rest⟩⟩
  obtain ⟨-, hd⟩ | ⟨w, ws', rfl, hw, hd⟩ | ⟨a, b, c, d, ws', rfl, hd⟩ | ⟨ws', -, -, hd⟩ := decode_cases ws <;>
    rw [hd] at h <;> cases h
  · obtain ⟨i, hwf, hi, rfl⟩ := exists_firstWord_eq hw
    rw [decodeWord_firstWord hwf hi, encode_of_ne_wrdin hi]
    exact ⟨hwf, rfl⟩
  · exact ⟨rfl, by simp [encode, payloadWords_payloadOf]⟩

/-- Settles O34: the words are those of R56's formats, which the decoder reads back. -/
theorem wordsOfEveryFormatDecode : Obligations.WordsOfEveryFormatDecode := by
  unfold Obligations.WordsOfEveryFormatDecode
  exact ⟨decodeOfEncodeIsTransaction .reset [] rfl, decodeOfEncodeIsTransaction .keygen [] rfl,
    decodeOfEncodeIsTransaction .dec [] rfl, decodeOfEncodeIsTransaction (.wrcmd 0xFF#8) [] rfl,
    decodeOfEncodeIsTransaction (.push 0x24#8) [] rfl,
    decodeOfEncodeIsTransaction (.wrdin 0x24486F6C61204445#64) [0x8002#16] rfl,
    decodeOfEncodeIsTransaction (.rdObyte 7#3) [] rfl, decodeOfEncodeIsTransaction (.rdSk 15#4) [] rfl,
    decodeOfEncodeIsTransaction (.rdN 0x20#6) [] rfl, decodeOfEncodeIsTransaction (.wrN 0x04#6 0xAA#8) [] rfl,
    decodeOfEncodeIsTransaction (.malformed83 0x01#8) [] rfl,
    decodeOfEncodeIsTransaction (.malformedRead 0x01#6 0x01#8) [] rfl,
    decodeOfEncodeIsTransaction (.malformedZ true 0x00#6 0x01#8) [] rfl⟩

/-! ## The trace decoder -/

theorem length_le_encodeTrace_length (is : List Instr) : is.length ≤ (encodeTrace is).length := by
  induction is with
  | nil => exact Nat.le_refl 0
  | cons i is ih =>
    have := encode_length_pos i
    simp only [encodeTrace, List.flatMap_cons, List.length_append, List.length_cons] at ih ⊢
    omega

/-- The trace decoder takes the next transaction off and goes on behind it. -/
theorem decodeTraceFuel_of_transaction {ws rest : List TWord} {i : Instr} (hd : decode ws = .ok (i, rest))
    (hi : i.malformedName = none) (fuel : Nat) :
    decodeTraceFuel (fuel + 1) ws = (decodeTraceFuel fuel rest).map (i :: ·) := by
  cases ws with
  | nil => cases hd
  | cons w ws =>
    simp only [decodeTraceFuel, hd, hi]
    cases decodeTraceFuel fuel rest <;> rfl

/-- The trace decoder refuses a malformed word by the name of its row (R62 item 3). -/
theorem decodeTraceFuel_of_malformed {ws rest : List TWord} {i : Instr} {e : DecodeError}
    (hd : decode ws = .ok (i, rest)) (hi : i.malformedName = some e) (fuel : Nat) :
    decodeTraceFuel (fuel + 1) ws = .error e := by
  cases ws with
  | nil => cases hd
  | cons w ws => simp only [decodeTraceFuel, hd, hi]

/-- The trace decoder reads a program and goes on behind it, with one unit of fuel for each transaction. -/
theorem decodeTraceFuel_encodeTrace_append (is : List Instr)
    (his : ∀ i ∈ is, i.wellFormed = true ∧ i.malformedName = none) (ws : List TWord) (fuel : Nat) :
    decodeTraceFuel (fuel + is.length) (encodeTrace is ++ ws) = (decodeTraceFuel fuel ws).map (is ++ ·) := by
  induction is with
  | nil => cases h : decodeTraceFuel fuel ws <;> simp [encodeTrace, h, Except.map]
  | cons i is ih =>
    obtain ⟨⟨hw, hm⟩, his⟩ := List.forall_mem_cons.mp his
    have hwords : encodeTrace (i :: is) ++ ws = encode i ++ (encodeTrace is ++ ws) := by simp [encodeTrace]
    rw [hwords, List.length_cons, ← Nat.add_assoc, decodeTraceFuel_of_transaction
      (decodeOfEncodeIsTransaction i _ hw) hm, ih his]
    cases decodeTraceFuel fuel ws <;> rfl

/-- The trace decoder behind a program has fuel for all words left. -/
theorem decodeTrace_encodeTrace_append {is : List Instr}
    (his : ∀ i ∈ is, i.wellFormed = true ∧ i.malformedName = none) (ws : List TWord) :
    ∃ fuel, ws.length ≤ fuel ∧ decodeTrace (encodeTrace is ++ ws) = (decodeTraceFuel fuel ws).map (is ++ ·) := by
  have hle := length_le_encodeTrace_length is
  have hlength : (encodeTrace is ++ ws).length = (encodeTrace is).length - is.length + ws.length + is.length := by
    rw [List.length_append]; omega
  exact ⟨_, Nat.le_add_left _ _, by rw [decodeTrace, hlength, decodeTraceFuel_encodeTrace_append is his]⟩

/-- Settles O33: behind the program stands nothing, a malformed row, or a cut payload. -/
theorem traceDecoderReadsProgramsAndRefuses : Obligations.TraceDecoderReadsProgramsAndRefuses := by
  unfold Obligations.TraceDecoderReadsProgramsAndRefuses
  refine fun is his => ⟨?_, fun i e rest hw he => ?_, fun ws hws => ?_⟩
  · obtain ⟨fuel, -, h⟩ := decodeTrace_encodeTrace_append his []
    simpa [decodeTraceFuel, Except.map] using h
  · obtain ⟨fuel, hfuel, h⟩ := decodeTrace_encodeTrace_append his (encode i ++ rest)
    have hpos := encode_length_pos i
    obtain ⟨fuel, rfl⟩ := Nat.exists_eq_add_one.mpr (show 0 < fuel by rw [List.length_append] at hfuel; omega)
    rw [List.append_assoc, h, decodeTraceFuel_of_malformed (decodeOfEncodeIsTransaction i rest hw) he]
    rfl
  · obtain ⟨fuel, hfuel, h⟩ := decodeTrace_encodeTrace_append his (0x8300#16 :: ws)
    obtain ⟨fuel, rfl⟩ := Nat.exists_eq_add_one.mpr (Nat.zero_lt_of_lt hfuel)
    rw [h, decodeTraceFuel, decode_truncated hws]
    rfl

/-! ## Words that spell no transaction -/

/-- The register number is the low part of the word's upper byte (R58). -/
theorem regno_eq_extractLsb'_highByte (w : TWord) : TWord.regno w = (w.extractLsb' 8 8).extractLsb' 0 6 := by
  ext i hi
  have h8 : i < 8 := by omega
  simp [TWord.regno, h8]

/-- The words 0x83xx (R62 item 3). -/
theorem decodeWord_of_highByte {w : TWord} (h : w.extractLsb' 8 8 = 0x83#8) :
    decodeWord w = .malformed83 (TWord.d8 w) := by
  have hrw : TWord.rw w = true := by simpa [TWord.rw] using congrArg (·.getLsbD 7) h
  have hz : TWord.z w = false := by simpa [TWord.z] using congrArg (·.getLsbD 6) h
  have hn : TWord.regno w = 0x03#6 := by
    rw [regno_eq_extractLsb'_highByte, h]
    rfl
  rw [← wordOf_fields w, decodeWord_wordOf]
  simp [hrw, hz, hn]

/-- The read words with data (R62 item 3). -/
theorem decodeWord_of_readData {w : TWord} (hrw : TWord.rw w = false) (hz : TWord.z w = false)
    (hd : TWord.d8 w ≠ 0x00#8) : decodeWord w = .malformedRead (TWord.regno w) (TWord.d8 w) := by
  rw [← wordOf_fields w, decodeWord_wordOf]
  simp [hrw, hz, hd]

/-- The words with `z = 1` but the reset marker (R59, R62 item 3). -/
theorem decodeWord_of_z {w : TWord} (hz : TWord.z w = true) (hw : w ≠ 0xC000#16) :
    decodeWord w = .malformedZ (TWord.rw w) (TWord.regno w) (TWord.d8 w) := by
  have hfields : ¬(TWord.rw w = true ∧ TWord.regno w = 0x00#6 ∧ TWord.d8 w = 0x00#8) := by
    rintro ⟨hrw, hn, hd⟩
    rw [← wordOf_fields w, hrw, hz, hn, hd] at hw
    exact hw (by decide)
  rw [← wordOf_fields w, decodeWord_wordOf]
  simp [hz, hfields]

end Sys2Proof

namespace Sys2Proof.Machine

/-! ## Steps of the decoded transaction -/

/-- A step runs the transaction that the trace decodes to. -/
theorem step_of_decode {s : State} {i : Instr} {rest : List TWord} (h : decode s.trace = .ok (i, rest)) :
    step s = exec i { s with trace := rest } := by
  simp only [step, h]

/-- A step on a word that stands alone. -/
theorem step_of_word {s : State} {w : TWord} {ws : List TWord} (hs : s.trace = w :: ws) (hw : w ≠ 0x8300#16) :
    step s = exec (decodeWord w) { s with trace := ws } :=
  step_of_decode (hs ▸ decode_word hw ws)

/-- Settles O29: the three answers of `decode` that a step tells apart. -/
theorem stepRunsDecodedTransaction : Obligations.StepRunsDecodedTransaction := by
  unfold Obligations.StepRunsDecodedTransaction
  refine ⟨fun s i rest h => step_of_decode h, fun s h => ?_, fun s ws h hws => ?_⟩
  · simp only [step, h, decode_nil]
  · simp only [step, h, decode_truncated hws]

/-- Settles O15: the decoder gives each such word to its malformed row, which `exec` refuses. -/
theorem malformedWordsRefused : Obligations.MalformedWordsRefused := by
  unfold Obligations.MalformedWordsRefused
  refine ⟨fun _ _ => rfl, fun _ _ _ => rfl, fun _ _ _ _ => rfl, fun s w ws hs => ⟨?_, ?_, ?_⟩⟩
  · intro hbyte hw
    rw [step_of_word hs hw, decodeWord_of_highByte hbyte]
    rfl
  · intro hrw hz hd
    have hw : w ≠ 0x8300#16 := by rintro rfl; exact absurd hrw (by decide)
    rw [step_of_word hs hw, decodeWord_of_readData hrw hz hd]
    rfl
  · intro hz hreset
    have hw : w ≠ 0x8300#16 := by rintro rfl; exact absurd hz (by decide)
    rw [step_of_word hs hw, decodeWord_of_z hz hreset]
    rfl

/-- Settles O14: the catch-all terms and the rows that own the access both do what the register map says. -/
theorem catchAllTermsFollowRegisterMap : Obligations.CatchAllTermsFollowRegisterMap := by
  unfold Obligations.CatchAllTermsFollowRegisterMap
  refine ⟨fun s b => ⟨?_, ?_, rfl, rfl⟩, fun s n => (exec_readRow n s).symm⟩
  · exact (exec_commandRow b s).symm
  · exact (exec_commandRow b s).symm

/-! ## Rows and transactions -/

/-- The transaction of a command's row is the write of its opcode to `CMD` (R60). -/
theorem transactionOf_commandRow (c : Byte) : transactionOf (commandRow c) = some (.regWrite 0x00#6 (0#56 ++ c)) := by
  unfold commandRow
  split_ifs with h1 h2 h3 h4 h5
  · rw [h1]; rfl
  · rw [h2]; rfl
  · rw [h3]; rfl
  · rw [h4]; rfl
  · rw [h5]; rfl
  · rfl

theorem commandRow_wellFormed (c : Byte) :
    (commandRow c).wellFormed = true ∧ (commandRow c).malformedName = none := by
  unfold commandRow
  split_ifs <;> simp_all [Instr.wellFormed, Instr.malformedName, isCommandOpcode]

/-- An opcode that the map leaves to `WRCMD` has that row (R60, R61). -/
theorem commandRow_of_not_opcode {c : Byte} (h : isCommandOpcode c = false) : commandRow c = .wrcmd c := by
  simp_all [commandRow, isCommandOpcode]

/-- The row of a read is well formed and spells just that read (R39, R63). -/
theorem readRow_spells (n : Regno) : transactionOf (readRow n) = some (.regRead n) ∧
    (readRow n).wellFormed = true ∧ (readRow n).malformedName = none := by
  revert n; decide

/-- A number that R131 lists has the row `RD n`. -/
theorem readRow_of_isBadRead {n : Regno} (h : isBadRead n = true) : readRow n = .rdN n := by
  revert n; decide

/-- A byte on the 64 wires of the port, the upper ones 0 (R65). -/
theorem zero_append_eq_setWidth (b : Byte) : (0#56 ++ b : Block) = b.setWidth 64 := by
  apply BitVec.eq_of_toNat_eq
  calc (0#56 ++ b : Block).toNat
    _ = (0#56).toNat * 2 ^ 8 + b.toNat := toNat_append_eq_add 0#56 b
    _ = (b.setWidth 64).toNat := by rw [BitVec.toNat_setWidth, BitVec.toNat_ofNat]; omega

theorem zero_append_toNat_lt (b : Byte) : (0#56 ++ b : Block).toNat < 256 := by
  rw [zero_append_eq_setWidth, BitVec.toNat_setWidth]
  omega

/-- Data that is 8 bits wide is its low byte on the 64 wires. -/
theorem zero_append_lowByte {v : Block} (h : v.toNat < 256) : 0#56 ++ v.extractLsb' 0 8 = v := by
  rw [zero_append_eq_setWidth]
  exact ((extractLsb'_eq_iff_of_lt h _).mp rfl).symm

theorem lowByte_zero_append (b : Byte) : (0#56 ++ b : Block).extractLsb' 0 8 = b :=
  (extractLsb'_eq_iff_of_lt (zero_append_toNat_lt b) b).mpr (zero_append_eq_setWidth b)

/-- The row of a write that R131 lists takes the low byte of the data, whatever it is. -/
theorem writeRow_of_isBadWrite {n : Regno} (h : isBadWrite n = true) (v : Block) :
    writeRow n v = .ok (.wrN n (v.extractLsb' 0 8)) := by
  obtain ⟨h0, h2, h3⟩ := ne_writable_of_isBadWrite h
  simpa [h, h0, h2, h3] using writeRow_cases n v

theorem narrowByte_of_lt {v : Block} (hv : v.toNat < 256) : narrowByte v = some (v.extractLsb' 0 8) := by
  obtain ⟨-, h⟩ | ⟨hge, -⟩ := narrowByte_cases v
  · exact h
  · omega

/-- The row of a command write (R60, R65). -/
theorem writeRow_cmd {v : Block} (hv : v.toNat < 256) :
    writeRow 0x00#6 v = .ok (commandRow (v.extractLsb' 0 8)) := by
  simp [writeRow, regOfNumber, narrowByte_of_lt hv]

/-- The row of a byte offered (R65, R81). -/
theorem writeRow_byteIn {v : Block} (hv : v.toNat < 256) :
    writeRow 0x02#6 v = .ok (.push (v.extractLsb' 0 8)) := by
  simp [writeRow, regOfNumber, narrowByte_of_lt hv]

/-- A row that spells a transaction is the row of that transaction (R63). -/
theorem rowOf_transactionOf {i : Instr} (hw : i.wellFormed = true) (hm : i.malformedName = none) :
    ∃ t : Transaction, transactionOf i = some t ∧ rowOf t = .ok i := by
  cases i with
  | reset => exact ⟨.reset, rfl, rfl⟩
  | wrcmd c =>
    have hrow : commandRow c = .wrcmd c := commandRow_of_not_opcode (by simpa [Instr.wellFormed] using hw)
    exact ⟨.regWrite 0x00#6 (0#56 ++ c), rfl,
      by rw [rowOf, writeRow_cmd (zero_append_toNat_lt c), lowByte_zero_append, hrow]⟩
  | push b =>
    exact ⟨.regWrite 0x02#6 (0#56 ++ b), rfl,
      by rw [rowOf, writeRow_byteIn (zero_append_toNat_lt b), lowByte_zero_append]⟩
  | wrN n b =>
    exact ⟨.regWrite n (0#56 ++ b), rfl, by rw [rowOf, writeRow_of_isBadWrite hw, lowByte_zero_append]⟩
  | rdN n => exact ⟨.regRead n, rfl, congrArg Except.ok (readRow_of_isBadRead hw)⟩
  | rdObyte i => exact ⟨_, rfl, congrArg Except.ok (by clear hw hm; revert i; decide)⟩
  | rdSk i => exact ⟨_, rfl, congrArg Except.ok (by clear hw hm; revert i; decide)⟩
  | malformed83 x => cases hm
  | malformedRead n d => cases hm
  | malformedZ rw n d => cases hm
  | _ => exact ⟨_, rfl, rfl⟩

/-- A write whose data has the register's width spells the row it has (R44, R63). -/
theorem writeRow_spells {n : Regno} {v : Block}
    (h : n = 0x00#6 ∧ v.toNat < 256 ∨ n = 0x02#6 ∧ v.toNat < 256 ∨ n = 0x03#6) :
    ∃ i : Instr, writeRow n v = .ok i ∧ transactionOf i = some (.regWrite n v) ∧ i.wellFormed = true ∧
      i.malformedName = none := by
  obtain ⟨rfl, hv⟩ | ⟨rfl, hv⟩ | rfl := h
  · refine ⟨_, writeRow_cmd hv, ?_, commandRow_wellFormed _⟩
    rw [transactionOf_commandRow, zero_append_lowByte hv]
  · refine ⟨_, writeRow_byteIn hv, ?_, rfl, rfl⟩
    rw [transactionOf, zero_append_lowByte hv]
  · exact ⟨.wrdin v, rfl, rfl, rfl, rfl⟩

/-- Settles O35: a row has its transaction; a reset, a read and a write have their row, each by its own lemma. -/
theorem rowsAreTransactions : Obligations.RowsAreTransactions := by
  unfold Obligations.RowsAreTransactions
  refine ⟨fun i hw hm => rowOf_transactionOf hw hm, fun t ht => ?_, fun n v hn => ?_⟩
  · cases t with
    | reset => exact ⟨.reset, rfl, rfl, rfl, rfl⟩
    | regRead n => exact ⟨_, rfl, readRow_spells n⟩
    | regWrite n v => exact writeRow_spells (ht n v rfl)
  · have hbad := (isBadWrite_iff_toNat n).mpr hn
    exact ⟨_, writeRow_of_isBadWrite hbad v, hbad, fun j => by simp⟩

/-! ## A request held on the wires -/

section HeldRequest
variable {p : Pins} {q : PortState} (hrst : p.rst = false) (hreq : p.req = true)
include hrst hreq

/-- A request on an idle port begins and waits its latency (R65, R157). -/
theorem clockEdge_of_idle (hq : q.waiting = none) :
    clockEdge p q = .next ({ q with waiting := some (latency q p - 1), begun := q.begun + 1 }, noAnswer) := by
  simp [clockEdge, hrst, hreq, hq]

theorem clockEdge_of_waiting {n : Nat} (hq : q.waiting = some (n + 1)) :
    clockEdge p q = .next ({ q with waiting := some n }, noAnswer) := by
  simp [clockEdge, hrst, hreq, hq]

/-- At the end of its wait the request takes effect and is answered (R65). -/
theorem clockEdge_of_waited {t : State} (hq : q.waiting = some 0)
    (ht : transact (pinTransaction p) q.engine = .next t) :
    clockEdge p q = .next ({ q with engine := t, waiting := none }, answered t.answers.getLast?) := by
  simp [clockEdge, hrst, hreq, hq, ht]

end HeldRequest

/-- The port before edge `n` of a request that an idle port `q` is given at edge 0 and that is held on the wires `p`,
up to the edge of its answer. -/
def heldPort (q : PortState) (p : Pins) : Nat → PortState
  | 0 => q
  | n + 1 => { q with waiting := some (latency q p - 1 - n), begun := q.begun + 1 }

@[simp] theorem heldPort_engine (q : PortState) (p : Pins) (n : Nat) : (heldPort q p n).engine = q.engine := by
  cases n <;> rfl

/-- Before its answer a held request only waits. -/
theorem clockEdge_heldPort {p : Pins} {q : PortState} (hrst : p.rst = false) (hreq : p.req = true)
    (hq : q.waiting = none) {n : Nat} (hn : n < latency q p) :
    clockEdge p (heldPort q p n) = .next (heldPort q p (n + 1), noAnswer) := by
  cases n with
  | zero => exact clockEdge_of_idle hrst hreq hq
  | succ n =>
    have hwait : latency q p - 1 - n = latency q p - 1 - (n + 1) + 1 := by omega
    exact clockEdge_of_waiting hrst hreq (congrArg some hwait)

/-- The edge that answers a held request. -/
theorem clockEdge_heldPort_latency {p : Pins} {q : PortState} {t : State} (hrst : p.rst = false) (hreq : p.req = true)
    (ht : transact (pinTransaction p) q.engine = .next t) :
    clockEdge p (heldPort q p (latency q p)) =
      .next ({ engine := t, waiting := none, begun := q.begun + 1 }, answered t.answers.getLast?) := by
  have hwaited : (heldPort q p (latency q p)).waiting = some 0 := congrArg some (Nat.sub_self _)
  exact clockEdge_of_waited hrst hreq hwaited ht

/-- A request on the wires is no reset (R54, R65). -/
theorem pinTransaction_ne_reset (p : Pins) : pinTransaction p ≠ .reset := by
  unfold pinTransaction
  split <;> nofun

/-- The row of a read of `STATUS` on the wires. -/
theorem row_of_status_pins {p : Pins} {i : Instr} (hrw : p.rw = false) (hn : p.regno = 0x01#6)
    (hi : rowOf (pinTransaction p) = .ok i) : i = .rdStatus := by
  simp only [pinTransaction, hrw, hn] at hi
  cases hi
  rfl

/-- Settles O51: the request begins at edge 0, waits at the edges before `T_LAT` and is answered there. -/
theorem heldRequestIsAnsweredAfterLatency : Obligations.HeldRequestIsAnsweredAfterLatency := by
  unfold Obligations.HeldRequestIsAnsweredAfterLatency
  intro q p i hrst hreq hi hq
  obtain ⟨t, a, hexec, ha⟩ := exec_rowOf_answers (pinTransaction_ne_reset p) hi q.engine
  have ht : transact (pinTransaction p) q.engine = .next t := by simp only [transact, hi, hexec]
  refine ⟨Nat.succ_pos _, t, a, heldPort q p, hexec, ha, fun hrw hn => ?_, rfl,
    fun n hn => ⟨clockEdge_heldPort hrst hreq hq hn, heldPort_engine q p (n + 1)⟩, ?_⟩
  · obtain rfl := row_of_status_pins hrw hn hi
    cases hexec
    obtain rfl : Answer.value (.status (statusWord q.engine)) = a := by simpa [answer] using ha
    exact ⟨rfl, rfl⟩
  · rw [clockEdge_heldPort_latency hrst hreq ht, ha, List.getLast?_concat]
    rfl

end Sys2Proof.Machine
end

section
/-! SUPPORT. The rules of the key-schedule family (spec/40_key_schedule.md R66 to R73): a subkey as a window of the
key, the key bits that a schedule shows, and `KEYGEN`. -/

namespace Sys2Proof.Machine

/-! ## The subkey as a window of the key -/

/-- A subkey is the shifted key modulo `2^48` (R66). -/
theorem subkey_toNat (k : Block) (i : Nat) : (subkey k i).toNat = k.toNat / 2 ^ i % 2 ^ 48 := by
  simp [subkey, Nat.shiftRight_eq_div_pow]

/-- The sign enters an arithmetic shift by `i` at bit `64 - i`, above the low 48 bits (R67). -/
theorem sshiftRight_setWidth_eq_subkey (k : Block) {i : Nat} (hi : i ≤ 15) :
    (k.sshiftRight i).setWidth 48 = subkey k i := by
  apply BitVec.eq_of_getLsbD_eq
  intro j hj
  have hword : j < 64 := by omega
  have hkeyBit : i + j < 64 := by omega
  rw [subkey_getLsbD, BitVec.getLsbD_setWidth, BitVec.getLsbD_sshiftRight, if_pos hkeyBit]
  simp only [Nat.not_le.mpr hword, decide_false, Bool.not_false, Bool.true_and]

/-- Settles O37: the bits are those of `subkey_getLsbD`, and a shift by at most 15 brings no sign into them. -/
theorem subkeyIsKeyWindow : Obligations.SubkeyIsKeyWindow := by
  unfold Obligations.SubkeyIsKeyWindow
  intro k i hi
  exact ⟨subkey_toNat k i, fun j hj => by rw [subkey_getLsbD, decide_eq_true hj, Bool.true_and],
    sshiftRight_setWidth_eq_subkey k hi⟩

/-! ## The key bits that a schedule shows -/

/-- A schedule shows bits 0 to 62 of its key and no other: bit `n` is bit `n - i` of subkey `i`, for `i` the smaller
of `n` and 15 (R70). -/
theorem schedule_eq_iff (k k' : Block) :
    schedule k = schedule k' ↔ ∀ n < 63, k.getLsbD n = k'.getLsbD n := by
  constructor
  · intro h n hn
    have hi : min n 15 < 16 := by omega
    have hj : n - min n 15 < 48 := by omega
    have hsum : min n 15 + (n - min n 15) = n := by omega
    have hsubkey : subkey k (min n 15) = subkey k' (min n 15) := by
      rw [← schedule_getElem k _ hi, ← schedule_getElem k' _ hi, h]
    have hbit := congrArg (·.getLsbD (n - min n 15)) hsubkey
    simpa only [subkey_getLsbD, hj, decide_true, Bool.true_and, hsum] using hbit
  · intro h
    apply Vector.ext
    intro i hi
    rw [schedule_getElem k i hi, schedule_getElem k' i hi]
    apply BitVec.eq_of_getLsbD_eq
    intro j hj
    rw [subkey_getLsbD, subkey_getLsbD, h (i + j) (by omega)]

/-- Inverting bit 63 of a key leaves its bits 0 to 62 and inverts that one. -/
theorem getLsbD_xor_topBit (k : Block) (n : Nat) :
    (k ^^^ 0x8000000000000000#64).getLsbD n = (k.getLsbD n ^^ decide (n = 63)) := by
  have htop : 0x8000000000000000#64 = BitVec.twoPow 64 63 := by decide
  rw [BitVec.getLsbD_xor, htop, BitVec.getLsbD_twoPow]
  simp [eq_comm]

/-- Bit 63 of the key is in no subkey (R71). -/
theorem schedule_xor_topBit (k : Block) : schedule k = schedule (k ^^^ 0x8000000000000000#64) := by
  rw [schedule_eq_iff]
  intro n hn
  have hne : n ≠ 63 := by omega
  rw [getLsbD_xor_topBit, decide_eq_false hne, Bool.xor_false]

/-- Keys that agree below bit 63 are equal, or differ in that bit alone. -/
theorem eq_or_eq_xor_topBit {k k' : Block} (h : ∀ n < 63, k.getLsbD n = k'.getLsbD n) :
    k' = k ∨ k' = k ^^^ 0x8000000000000000#64 := by
  by_cases htop : k'.getLsbD 63 = k.getLsbD 63
  · refine .inl (BitVec.eq_of_getLsbD_eq fun n hn => ?_)
    obtain hlow | rfl : n < 63 ∨ n = 63 := by omega
    · exact (h n hlow).symm
    · exact htop
  · refine .inr (BitVec.eq_of_getLsbD_eq fun n hn => ?_)
    rw [getLsbD_xor_topBit]
    obtain hlow | rfl : n < 63 ∨ n = 63 := by omega
    · rw [decide_eq_false hlow.ne, Bool.xor_false, h n hlow]
    · rw [decide_eq_true rfl, Bool.xor_true, Bool.eq_not.mpr htop]

/-- Settles O38: schedules are equal exactly when the keys agree on bits 0 to 62, and a block is encrypted under the
schedule alone. -/
theorem onlyKeyBitSixtyThreeIsUnused : Obligations.OnlyKeyBitSixtyThreeIsUnused := by
  unfold Obligations.OnlyKeyBitSixtyThreeIsUnused
  refine ⟨schedule_xor_topBit, fun c b k => ?_, fun k k' h => ?_⟩
  · exact congrArg (encodeSK c b) (schedule_xor_topBit k)
  · exact eq_or_eq_xor_topBit ((schedule_eq_iff k k').mp h)

/-! ## The command -/

/-- The operand of a buffer of length 8 is its bytes joined, the first most significant (R75, R79). -/
theorem operand_of_ilen {s : State} (hl : s.ilen = 8#4) :
    operand s = .ok (s.ibuf[0] ++ s.ibuf[1] ++ s.ibuf[2] ++ s.ibuf[3] ++ s.ibuf[4] ++ s.ibuf[5] ++ s.ibuf[6] ++
      s.ibuf[7]) := by
  obtain ⟨-, ho⟩ | ⟨hne, -⟩ := operand_cases s
  · exact ho
  · exact absurd hl hne

/-- Settles O2: the three cases of `KEYGEN` are those of R73, and the key is the operand. -/
theorem keygenLoadsKeyOrRefuses : Obligations.KeygenLoadsKeyOrRefuses := by
  unfold Obligations.KeygenLoadsKeyOrRefuses
  refine ⟨rfl, fun s => ?_⟩
  obtain ⟨hk, h⟩ | ⟨hk, hl, h⟩ | ⟨hk, hl, k, ho, h⟩ := keygenCommand_cases s
  · exact ⟨fun _ => congrArg _ h, by simp [hk], by simp [hk]⟩
  · exact ⟨by simp [hk], fun _ _ => congrArg _ h, by simp [hl]⟩
  · refine ⟨by simp [hk], by simp [hl], fun _ _ b hb => ?_⟩
    obtain rfl : k = b := by simpa [operand_of_ilen hl, ← hb] using ho.symm
    exact congrArg _ h

end Sys2Proof.Machine
end

section
/-! SUPPORT. The rules of the Bit-Block Adapter's family (spec/41_bit_block_adapter.md R75 to R83): bytes and blocks
bit by bit in both directions, and the operand writes and `FLUSH` on the operand buffer. -/

namespace Sys2Proof.Machine

/-! ## Bytes and blocks -/

/-- Byte `i` of the block of eight bytes is byte `i` of them (R75). -/
theorem blockByte_of_bytesToBlock {v : Vector Byte 8} {b : Block} (h : bytesToBlock v.toList = .ok b) {i : Nat}
    (hi : i < 8) : blockByte b i = v[i] := by
  obtain rfl : v[0] ++ v[1] ++ v[2] ++ v[3] ++ v[4] ++ v[5] ++ v[6] ++ v[7] = b := by simpa using h
  apply BitVec.eq_of_getLsbD_eq
  intro j hj
  rw [blockByte_getLsbD, decide_eq_true hj, Bool.true_and, joined_getLsbD]
  -- for each `i` the bits `(7 - i) * 8 + j` lie in one range of the eight, that of `v[i]`; the other ranges are empty
  interval_cases i <;> split_ifs <;> first | omega | (congr 1; omega)

/-- Bytes are what the block they make is taken apart into (R77). -/
theorem blockToBytes_of_bytesToBlock {v : Vector Byte 8} {b : Block} (h : bytesToBlock v.toList = .ok b) :
    blockToBytes b = v := by
  apply Vector.ext
  intro i hi
  rw [blockToBytes_getElem, blockByte_of_bytesToBlock h hi]

/-- Settles O40: eight bytes always make a block, and the two functions undo each other byte by byte. -/
theorem bytesAndBlocksAreInverse : Obligations.BytesAndBlocksAreInverse := by
  unfold Obligations.BytesAndBlocksAreInverse
  exact ⟨fun v => ⟨_, bytesToBlock_toList v, blockToBytes_of_bytesToBlock (bytesToBlock_toList v)⟩,
    bytesToBlock_blockToBytes⟩

/-- Bit `j` of byte `i` of a block, in the form of R75 and R76. -/
theorem blockByte_getLsbD_fin (b : Block) (i j : Fin 8) :
    (blockByte b i).getLsbD j = b.getLsbD ((7 - i.val) * 8 + j) := by
  rw [blockByte_getLsbD, decide_eq_true j.isLt, Bool.true_and]

/-- Settles O39: both directions are the bits of byte `i` of the block. -/
theorem bytesAndBlocksAreBigEndian : Obligations.BytesAndBlocksAreBigEndian := by
  unfold Obligations.BytesAndBlocksAreBigEndian
  refine ⟨fun l => bytesToBlock_error, fun v => ⟨_, bytesToBlock_toList v, fun i j => ?_⟩, fun b i j => ?_⟩
  · rw [← blockByte_getLsbD_fin, blockByte_of_bytesToBlock (bytesToBlock_toList v) i.isLt, Fin.getElem_fin]
  · rw [Fin.getElem_fin, blockToBytes_getElem, blockByte_getLsbD_fin]

/-! ## The operand buffer -/

/-- A pushed byte is stored at `ILEN`, which is no index of the buffer from 8 up (R81). -/
theorem pushByte_ibuf_getElem (b : Byte) (s : State) {i : Nat} (hi : i < 8) :
    (pushByte b s).ibuf[i] = if i = s.ilen.toNat then b else s.ibuf[i] := by
  by_cases h : s.ilen.toNat < 8
  · simp only [pushByte_ibuf, h, dite_true, Vector.getElem_set, eq_comm]
  · have hne : i ≠ s.ilen.toNat := by omega
    simp only [pushByte_ibuf, h, dite_false, hne, if_false]

/-- A word with the byte `b` as its low half is that word with 0 there, plus `b` (R56). -/
theorem append_byte_eq_add (h b : Byte) : (h ++ b : TWord) = (h ++ 0x00#8) + b.setWidth 16 := by
  apply BitVec.eq_of_toNat_eq
  have hh := h.isLt
  have hb := b.isLt
  rw [BitVec.toNat_add, toNat_append_eq_add, toNat_append_eq_add, BitVec.toNat_setWidth]
  simp only [BitVec.toNat_ofNat]
  omega

/-- Settles O7: the state is that of `pushByte`, entry by entry. -/
theorem pushStoresAndCounts : Obligations.PushStoresAndCounts := by
  unfold Obligations.PushStoresAndCounts
  intro s b
  exact ⟨congrArg (· :: []) (append_byte_eq_add 0x82#8 b), (pushByte b s).ibuf, satIncr s.ilen, rfl,
    fun i => pushByte_ibuf_getElem b s i.isLt, satIncr_toNat s.ilen⟩

/-- Settles O8: the buffer is that of `loadOperand`. -/
theorem wrdinReplacesBuffer : Obligations.WrdinReplacesBuffer := by
  unfold Obligations.WrdinReplacesBuffer
  intro s v
  exact ⟨blockToBytes v, rfl, fun i => blockToBytes_getElem v i i.isLt⟩

/-- Consuming an empty buffer of zeros changes nothing (R80). -/
theorem consume_of_empty {s : State} (hl : s.ilen = 0#4) (hb : ∀ i : Fin 8, s.ibuf[i] = 0x00#8) : consume s = s := by
  have hzero : Vector.replicate 8 0x00#8 = s.ibuf := Vector.ext fun i hi => by simpa using (hb ⟨i, hi⟩).symm
  exact State.ext rfl rfl rfl hzero hl.symm rfl rfl rfl rfl rfl rfl

/-- Settles O5: `FLUSH` consumes the operand, and consuming an empty one is nothing. -/
theorem flushEmptiesBuffer : Obligations.FlushEmptiesBuffer := by
  unfold Obligations.FlushEmptiesBuffer
  refine ⟨rfl, fun s => rfl, fun s hl hb => ?_⟩
  have hflush : exec .flush s = .next (answer .ok { consume s with err := 0#3 }) := rfl
  rw [hflush, consume_of_empty hl hb]
  rfl

/-- `FLUSH` and then the bytes of `v` one by one fill the buffer (R81, R83). -/
theorem runProgram_flush_push_block (v : Block) (s : State) :
    runProgram (.flush :: (blockToBytes v).toList.map .push) s =
      .next { flushCommand s with
        ibuf := blockToBytes v, ilen := 8#4, answers := (flushCommand s).answers ++ List.replicate 8 .ok } :=
  runProgram_push_block v (flushCommand s) rfl rfl

/-- Offering a whole operand again changes no register (R82). -/
theorem sameRegisters_loadOperand_again (v : Block) (a : Answer) (s : State) :
    SameRegisters (loadOperand v s) (loadOperand v (answer a (loadOperand v s))) := by
  simp [SameRegisters]

/-- Settles O9: both ways the buffer holds the bytes of `v` and `ILEN` is 8; `FLUSH` writes `ERR` besides. -/
theorem wrdinEqualsEightPushes : Obligations.WrdinEqualsEightPushes := by
  unfold Obligations.WrdinEqualsEightPushes
  intro s v
  refine ⟨answer .ok (loadOperand v s), _, answer .ok (loadOperand v (answer .ok (loadOperand v s))), rfl,
    runProgram_flush_push_block v s, rfl, ?_, sameRegisters_loadOperand_again v .ok s⟩
  simp [SameRegisters, flushCommand]

end Sys2Proof.Machine
end

section
/-! SUPPORT. The rules of the round-function family (spec/42_round_function.md R85 to R97): the steps of F bit by bit
and group by group, which part of the tables makes the result depend on the key, and which raw records of tables are
configurations. -/

namespace Sys2Proof.Machine

/-! ## The four steps -/

/-- Settles O41: each step is its law, and F is their composition by definition. -/
theorem roundFunctionStepsBitByBit : Obligations.RoundFunctionStepsBitByBit := by
  unfold Obligations.RoundFunctionStepsBitByBit
  exact fun c => ⟨fun h j => expand_getLsbD c h j j.isLt, mix_getLsbD, fun y j => permute_getLsbD c y j j.isLt,
    fun h k => rfl⟩

/-- A field of one bit is that bit. -/
theorem extractLsb'_one_toNat {w : Nat} (x : BitVec w) (n : Nat) :
    (x.extractLsb' n 1).toNat = (x.getLsbD n).toNat := by
  rw [BitVec.extractLsb'_toNat, BitVec.getLsbD, Nat.toNat_testBit, Nat.shiftRight_eq_div_pow, Nat.pow_one]

/-- The row of a group is `2*G[5] + G[0]` (R89). -/
theorem groupRow_toNat (x : BitVec 6) :
    (groupRow x).toNat = 2 * (x.getLsbD 5).toNat + (x.getLsbD 0).toNat := by
  rw [groupRow, toNat_append_eq_add, extractLsb'_one_toNat, extractLsb'_one_toNat, Nat.mul_comm, Nat.pow_one]

/-- Bit `j` of group `g` is bit `42 - 6g + j` of the mixed value (R89). -/
theorem group_getLsbD (m : BitVec 48) (g : Nat) {j : Nat} (hj : j < 6) :
    (group m g).getLsbD j = m.getLsbD (42 - 6 * g + j) := by
  rw [group, BitVec.getLsbD_extractLsb', decide_eq_true hj, Bool.true_and]

/-- The column of group `g` is the four bits from `43 - 6g` up (R89). -/
theorem groupCol_group (m : BitVec 48) {g : Nat} (hg : g < 8) :
    groupCol (group m g) = m.extractLsb' (43 - 6 * g) 4 := by
  apply BitVec.eq_of_getLsbD_eq
  intro j hj
  have hinner : 1 + j < 6 := by omega
  have hpos : 42 - 6 * g + (1 + j) = 43 - 6 * g + j := by omega
  rw [groupCol, BitVec.getLsbD_extractLsb', group_getLsbD m g hinner, hpos, BitVec.getLsbD_extractLsb']

/-- The nibble of a group is the entry at the group's row and column, as indexes of the matrix. -/
theorem nibble_eq_entry (c : Cfg) {x : BitVec 6} {row : Fin 4} {col : Fin 16} (hrow : row.val = (groupRow x).toNat)
    (hcol : col.val = (groupCol x).toNat) : nibble c x = c.sbox[row][col] := by
  simp only [nibble, ← hrow, ← hcol, Fin.getElem_fin]

/-- Four bits from bit 4 up of a value with a nibble joined below it lie in the value. -/
theorem extractLsb'_append_nibble_add {w : Nat} (y : BitVec w) (x : BitVec 4) (n : Nat) :
    (y ++ x).extractLsb' (n + 4) 4 = y.extractLsb' n 4 := by
  rw [BitVec.extractLsb'_append_eq_of_le (Nat.le_add_left 4 n), Nat.add_sub_cancel]

/-- The low four bits of a value with a nibble joined below it are the nibble. -/
theorem extractLsb'_append_nibble_zero {w : Nat} (y : BitVec w) (x : BitVec 4) :
    (y ++ x).extractLsb' 0 4 = x := by
  rw [BitVec.extractLsb'_append_eq_of_add_le (Nat.le_refl 4), BitVec.extractLsb'_eq_self]

/-- The nibble of group `g` stands at bits `31-4g .. 28-4g`: each of the `7 - g` later nibbles takes four bits below
it (R89). -/
theorem substitute_extractLsb' (c : Cfg) (m : BitVec 48) (g : Fin 8) :
    (substitute c m).extractLsb' (28 - 4 * g.val) 4 = nibble c (group m g) := by
  fin_cases g <;> simp [substitute, extractLsb'_append_nibble_add, extractLsb'_append_nibble_zero]

/-- Settles O42: the nibble of each group stands in its place, and its row and column are those of the bits. -/
theorem substituteLooksUpEachGroup : Obligations.SubstituteLooksUpEachGroup := by
  unfold Obligations.SubstituteLooksUpEachGroup
  intro c m g row col hrow hcol
  have hhigh : 42 - 6 * g.val + 5 = 47 - 6 * g.val := by omega
  rw [substitute_extractLsb']
  refine nibble_eq_entry c ?_ ?_
  · rw [hrow, groupRow_toNat, group_getLsbD m g (by decide), group_getLsbD m g (by decide), hhigh, Nat.add_zero]
  · rw [hcol, groupCol_group m g.isLt]

/-! ## Key sensitivity -/

section ConstantMatrix

variable {c : Cfg} {x : BitVec 4} (hx : ∀ (r : Fin 4) (col : Fin 16), c.sbox[r][col] = x)
include hx

/-- With all entries of the matrix equal every group gives that entry. -/
theorem nibble_of_constant_sbox (y : BitVec 6) : nibble c y = x :=
  hx (groupRow y).toFin (groupCol y).toFin

/-- With all entries of the matrix equal F ignores its subkey: the mixed value ends in the lookup (R95). -/
theorem roundF_of_constant_sbox (h : Half) (k k' : Subkey) : roundF c h k = roundF c h k' := by
  simp only [roundF, substitute, nibble_of_constant_sbox hx]

/-- With all entries of the matrix equal a pass applies one and the same round sixteen times, whatever the subkeys. -/
theorem runRounds_of_constant_sbox (l r : Half) (sk : Schedule) (forward : Bool) :
    runRounds c l r sk forward = (fun lr => feistelRound c lr 0#48)^[16] (l, r) := by
  have hround : feistelRound c = fun lr _ => feistelRound c lr 0#48 := by
    funext lr k
    rw [feistelRound, feistelRound, roundF_of_constant_sbox hx lr.2 k 0#48]
  have hlen : (subkeyOrder sk forward).length = 16 := by cases forward <;> simp [subkeyOrder]
  rw [runRounds, hround, List.foldl_const, hlen]

/-- With all entries of the matrix equal the key does not matter (R95). -/
theorem encodeBlock_of_constant_sbox (b k k' : Block) : encodeBlock c b k = encodeBlock c b k' := by
  simp only [encodeBlock, encodeSK, cipherPass, runRounds_of_constant_sbox hx]

end ConstantMatrix

/-- Two keys that differ in bit 0 alone, from section 3.4 of the vectors. -/
theorem encodeBlock_refCfg_key_sensitive :
    encodeBlock refCfg 0x24486F6C61204445#64 0x1334577E6BBEF7C1#64 = 0xFF8B13A22C4766F3#64 ∧
      encodeBlock refCfg 0x24486F6C61204445#64 0x1334577E6BBEF7C0#64 = 0xF53AA6CD67684344#64 := by
  decide +kernel

/-- The same two keys under `TST`. -/
theorem encodeBlock_tstCfg_key_sensitive :
    encodeBlock tstCfg 0x24486F6C61204445#64 0x1334577E6BBEF7C1#64 = 0x60FC69762A385B99#64 ∧
      encodeBlock tstCfg 0x24486F6C61204445#64 0x1334577E6BBEF7C0#64 = 0xA7587C4696813172#64 := by
  decide +kernel

/-- Settles O47: with a constant matrix F ignores its subkey, so each round and the whole pass do; the scenario's key
and that key with bit 0 inverted give different results under `REF` and under `TST`. -/
theorem keySensitivityDependsOnTables : Obligations.KeySensitivityDependsOnTables := by
  unfold Obligations.KeySensitivityDependsOnTables
  refine ⟨fun c x hx => encodeBlock_of_constant_sbox hx, ⟨0x1334577E6BBEF7C1#64, 0x1334577E6BBEF7C0#64, ?_⟩,
    0x1334577E6BBEF7C1#64, 0x1334577E6BBEF7C0#64, ?_⟩
  · obtain ⟨h, h'⟩ := encodeBlock_refCfg_key_sensitive
    rw [h, h']
    decide
  · obtain ⟨h, h'⟩ := encodeBlock_tstCfg_key_sensitive
    rw [h, h']
    decide

/-! ## Raw records of tables -/

/-- A list is read as a vector of `n` entries exactly when it is that vector's list. -/
theorem exactly_eq_some_iff {α : Type} {n : Nat} {l : List α} {v : Vector α n} :
    exactly n l = some v ↔ v.toList = l := by
  unfold exactly
  split
  case isTrue h =>
    rw [Option.some.injEq, ← Vector.toList_inj, eq_comm]
    rfl
  case isFalse h =>
    have hne : v.toList ≠ l := fun hl => h (hl ▸ v.length_toList)
    simp only [reduceCtorEq, hne]

/-- A reader that takes a list entry by entry, each to the one value that `f` writes as this entry, inverts
`List.map f`; so what it reads in exactly `n` entries is a vector that `f` writes as the list. -/
theorem bind_exactly_eq_some_iff {α β : Type} {f : β → α} {read : List α → Option (List β)}
    (hcons : ∀ x xs zs, read (x :: xs) = some zs ↔ ∃ y ys, zs = y :: ys ∧ f y = x ∧ read xs = some ys)
    (hnil : read [] = some []) {n : Nat} {l : List α} {v : Vector β n} :
    (read l).bind (exactly n) = some v ↔ v.toList.map f = l := by
  have hread : ∀ zs, read l = some zs ↔ zs.map f = l := by
    induction l with
    | nil => simp only [hnil, Option.some.injEq, List.map_eq_nil_iff, eq_comm, implies_true]
    | cons x xs ih => simp only [hcons, List.map_eq_cons_iff, ih, implies_true]
  simp only [Option.bind_eq_some_iff, exactly_eq_some_iff, hread, exists_eq_right']

/-- A bit index is kept when it is below 32, and no other is read (R96). -/
theorem bitIndexes_cons_eq_some_iff (x : Nat) (xs : List Nat) (zs : List (Fin 32)) :
    bitIndexes (x :: xs) = some zs ↔ ∃ y ys, zs = y :: ys ∧ y.val = x ∧ bitIndexes xs = some ys := by
  by_cases hx : x < 32
  · cases h : bitIndexes xs with
    | none => simp [bitIndexes, hx, h]
    | some ys => simp [bitIndexes, hx, h, Fin.exists_iff, eq_comm]
  · have hne (y : Fin 32) : y.val ≠ x := by omega
    simp [bitIndexes, hx, hne]

/-- An entry of a row is kept when it is below 16, and no other is read (R96). -/
theorem nibbles_cons_eq_some_iff (x : Nat) (xs : List Nat) (zs : List (BitVec 4)) :
    nibbles (x :: xs) = some zs ↔ ∃ y ys, zs = y :: ys ∧ y.toNat = x ∧ nibbles xs = some ys := by
  by_cases hx : x < 16
  · have hy (y : BitVec 4) : y.toNat = x ↔ y = BitVec.ofNat 4 x := by
      rw [BitVec.toNat_eq, BitVec.toNat_ofNat, Nat.mod_eq_of_lt hx]
    cases h : nibbles xs with
    | none => simp [nibbles, hx, h]
    | some ys => simp [nibbles, hx, h, hy, eq_comm]
  · have hne (y : BitVec 4) : y.toNat ≠ x := by omega
    simp [nibbles, hx, hne]

/-- The numbers of a row of the substitution matrix. -/
def rowNumbers (row : Vector (BitVec 4) 16) : List Nat := row.toList.map BitVec.toNat

theorem nibbles_bind_exactly_eq_some_iff {l : List Nat} {row : Vector (BitVec 4) 16} :
    (nibbles l).bind (exactly 16) = some row ↔ rowNumbers row = l :=
  bind_exactly_eq_some_iff nibbles_cons_eq_some_iff rfl

/-- A row is kept when it has 16 entries below 16, and no other is read (R96). -/
theorem sboxRows_cons_eq_some_iff (l : List Nat) (ls : List (List Nat)) (zs : List (Vector (BitVec 4) 16)) :
    sboxRows (l :: ls) = some zs ↔ ∃ row rows, zs = row :: rows ∧ rowNumbers row = l ∧ sboxRows ls = some rows := by
  simp only [← nibbles_bind_exactly_eq_some_iff, sboxRows]
  split
  next row rows hrow hrows => simp [hrow, hrows, eq_comm]
  next hnone => exact ⟨nofun, fun ⟨row, rows, _, hrow, hrows⟩ => (hnone row rows hrow hrows).elim⟩

/-- A record is read as the configuration whose entries it has, each in its place (R96). -/
theorem cfgOfRaw_eq_some_iff (r : RawCfg) (c : Cfg) :
    cfgOfRaw r = some c ↔ c.eTable.toList.map Fin.val = r.eTable ∧ c.pTable.toList.map Fin.val = r.pTable ∧
      c.sbox.toList.map rowNumbers = r.sbox := by
  simp only [← bind_exactly_eq_some_iff bitIndexes_cons_eq_some_iff rfl,
    ← bind_exactly_eq_some_iff sboxRows_cons_eq_some_iff rfl, cfgOfRaw]
  split
  next e p b he hp hb =>
    obtain ⟨e', p', b'⟩ := c
    simp [he, hp, hb]
  next hnone => exact ⟨nofun, fun ⟨he, hp, hb⟩ => (hnone _ _ _ he hp hb).elim⟩

/-- `f` writes some vector as a list exactly when the list has the vector's length and each entry is one that `f`
writes. -/
theorem exists_toList_map_eq_iff {α β : Type} {n : Nat} {f : α → β} {l : List β} :
    (∃ v : Vector α n, v.toList.map f = l) ↔ l.length = n ∧ ∀ x ∈ l, ∃ a, f a = x := by
  constructor
  · rintro ⟨v, rfl⟩
    simp
  · rintro ⟨hlen, hl⟩
    obtain ⟨ys, rfl⟩ : l ∈ Set.range (List.map f) := by rwa [Set.range_list_map]
    exact ⟨⟨ys.toArray, by simpa using hlen⟩, rfl⟩

theorem exists_toList_map_val_eq_iff {n : Nat} {l : List Nat} :
    (∃ v : Vector (Fin 32) n, v.toList.map Fin.val = l) ↔ l.length = n ∧ ∀ x ∈ l, x < 32 := by
  simp only [exists_toList_map_eq_iff, Fin.exists_iff, exists_prop, exists_eq_right]

theorem exists_rowNumbers_eq_iff {l : List Nat} :
    (∃ row, rowNumbers row = l) ↔ l.length = 16 ∧ ∀ x ∈ l, x < 16 := by
  have hrange (x : Nat) : (∃ y : BitVec 4, y.toNat = x) ↔ x < 16 :=
    ⟨fun ⟨y, hy⟩ => hy ▸ y.isLt, fun hx => ⟨BitVec.ofNat 4 x, Nat.mod_eq_of_lt hx⟩⟩
  simp only [rowNumbers, exists_toList_map_eq_iff, hrange]

theorem rawCfg_wellFormed_iff (r : RawCfg) :
    r.wellFormed = true ↔ (r.eTable.length = 48 ∧ ∀ x ∈ r.eTable, x < 32) ∧
      (r.pTable.length = 32 ∧ ∀ x ∈ r.pTable, x < 32) ∧
      r.sbox.length = 4 ∧ ∀ l ∈ r.sbox, l.length = 16 ∧ ∀ x ∈ l, x < 16 := by
  simp [RawCfg.wellFormed, and_assoc]

/-- A record is read exactly when it is well formed: each table is one that the type of its entries can write. -/
theorem exists_cfgOfRaw_eq_some_iff (r : RawCfg) : (∃ c, cfgOfRaw r = some c) ↔ r.wellFormed = true := by
  calc (∃ c, cfgOfRaw r = some c)
    _ ↔ (∃ e : Vector (Fin 32) 48, e.toList.map Fin.val = r.eTable) ∧
        (∃ p : Vector (Fin 32) 32, p.toList.map Fin.val = r.pTable) ∧
        ∃ b : Vector (Vector (BitVec 4) 16) 4, b.toList.map rowNumbers = r.sbox := by
      simp only [cfgOfRaw_eq_some_iff]
      exact ⟨fun ⟨c, he, hp, hb⟩ => ⟨⟨_, he⟩, ⟨_, hp⟩, _, hb⟩,
        fun ⟨⟨e, he⟩, ⟨p, hp⟩, b, hb⟩ => ⟨⟨e, p, b⟩, he, hp, hb⟩⟩
    _ ↔ r.wellFormed = true := by
      rw [rawCfg_wellFormed_iff, exists_toList_map_val_eq_iff, exists_toList_map_val_eq_iff,
        exists_toList_map_eq_iff]
      simp only [exists_rowNumbers_eq_iff]

/-- Settles O48: a record is read exactly as the configuration with its entries, and one exists exactly when the
record is well formed. -/
theorem rawTablesAcceptedIffWellFormed : Obligations.RawTablesAcceptedIffWellFormed := by
  unfold Obligations.RawTablesAcceptedIffWellFormed
  intro r
  refine ⟨?_, fun c => (cfgOfRaw_eq_some_iff r c).mp⟩
  rw [Bool.eq_iff_iff, Option.isSome_iff_exists, exists_cfgOfRaw_eq_some_iff]

end Sys2Proof.Machine
end

section
/-! SUPPORT. The rules of the Feistel-engine family (spec/43_feistel_engine.md R100 to R106): the inverse law of the
round sequence. -/

namespace Sys2Proof.Machine

/-- Any rounds are undone from the exchanged result by the same subkeys in reverse order: the last of these rounds
undoes the first (R105). -/
theorem foldl_feistelRound_undo (c : Cfg) (ks : List Subkey) (lr : Half × Half) :
    ks.reverse.foldl (feistelRound c) (ks.foldl (feistelRound c) lr).swap = lr.swap := by
  induction ks generalizing lr with
  | nil => rfl
  | cons k ks ih =>
    rw [List.foldl_cons, List.reverse_cons, List.foldl_append, ih]
    exact feistelRound_undo c lr k

/-- Settles O43: the other direction takes the same subkeys in reverse order, so its rounds undo those of the pass. -/
theorem reversePassUndoesForwardPass : Obligations.ReversePassUndoesForwardPass := by
  unfold Obligations.ReversePassUndoesForwardPass
  intro c sk l r a b forward hpass
  have hundo := foldl_feistelRound_undo c (subkeyOrder sk forward) (l, r)
  rw [runRounds] at hpass
  rw [hpass] at hundo
  rw [runRounds, subkeyOrder_not]
  exact hundo

end Sys2Proof.Machine
end

section
/-! SUPPORT. The rules of the facade family (spec/44_facade_commands.md R107 to R125): a pass is undone by the pass in
the other direction, so Encode and Decode are inverse bijections; `ENC` and `DEC` case by case and with the key of a
reachable state; and the program that loads a key and runs one of them. -/

namespace Sys2Proof.Machine

/-! ## Encode and Decode -/

/-- A pass is the rounds on the halves of its block, joined (R107, R110, R111). -/
theorem cipherPass_eq_join_foldl (c : Cfg) (forward : Bool) (b : Block) (sk : Schedule) :
    cipherPass c forward b sk = join ((subkeyOrder sk forward).foldl (feistelRound c) (split b)) := rfl

/-- A pass is undone by the pass in the other direction: `Join` exchanges the halves, which is what the rounds need to
undo themselves in reverse order (R112). -/
theorem cipherPass_undo (c : Cfg) (forward : Bool) (b : Block) (sk : Schedule) :
    cipherPass c (!forward) (cipherPass c forward b sk) sk = b := by
  rw [cipherPass_eq_join_foldl, cipherPass_eq_join_foldl, split_join, subkeyOrder_not, foldl_feistelRound_undo,
    join_swap_split]

/-- Settles O44: a reverse pass undoes the forward pass, whatever the schedule. -/
theorem decodeOfEncodeIsBlock : Obligations.DecodeOfEncodeIsBlock := by
  unfold Obligations.DecodeOfEncodeIsBlock
  exact fun c b => ⟨fun k => cipherPass_undo c true b (schedule k), cipherPass_undo c true b⟩

theorem decodeBlock_leftInverse_encodeBlock (c : Cfg) (k : Block) :
    Function.LeftInverse (fun b => decodeBlock c b k) fun b => encodeBlock c b k :=
  fun b => cipherPass_undo c true b (schedule k)

theorem encodeBlock_leftInverse_decodeBlock (c : Cfg) (k : Block) :
    Function.LeftInverse (fun b => encodeBlock c b k) fun b => decodeBlock c b k :=
  fun b => cipherPass_undo c false b (schedule k)

/-- The four keys of R72 whose sixteen subkeys are one and the same. -/
theorem schedule_eq_replicate : ∀ k ∈ [0#64, 0x8000000000000000#64, 0x7FFFFFFFFFFFFFFF#64, 0xFFFFFFFFFFFFFFFF#64],
    schedule k = Vector.replicate 16 (subkey k 0) := by
  simp only [List.forall_mem_cons]
  exact ⟨by decide +kernel, by decide +kernel, by decide +kernel, by decide +kernel, nofun⟩

/-- Equal subkeys come in the same order in both directions. -/
theorem subkeyOrder_replicate (x : Subkey) (forward : Bool) :
    subkeyOrder (Vector.replicate 16 x) forward = List.replicate 16 x := by
  cases forward <;> simp [subkeyOrder]

/-- With equal subkeys both directions are one function (R113). -/
theorem encodeBlock_eq_decodeBlock_of_replicate {k : Block} {x : Subkey} (hk : schedule k = Vector.replicate 16 x)
    (c : Cfg) (b : Block) : encodeBlock c b k = decodeBlock c b k := by
  simp only [encodeBlock, decodeBlock, encodeSK, decodeSK, cipherPass_eq_join_foldl, hk, subkeyOrder_replicate]

/-- Settles O45: each of the two functions is the other's inverse, and for equal subkeys they are the same. -/
theorem encodeOfDecodeIsBlock : Obligations.EncodeOfDecodeIsBlock := by
  unfold Obligations.EncodeOfDecodeIsBlock
  refine ⟨fun c b k => encodeBlock_leftInverse_decodeBlock c k b, fun c k => ?_, fun c b k hk => ?_⟩
  · have hdec := decodeBlock_leftInverse_encodeBlock c k
    have henc := encodeBlock_leftInverse_decodeBlock c k
    exact ⟨⟨hdec.injective, henc.surjective⟩, henc.injective, hdec.surjective⟩
  · have heq := encodeBlock_eq_decodeBlock_of_replicate (schedule_eq_replicate k hk) c
    exact ⟨heq b, (heq _).trans (decodeBlock_leftInverse_encodeBlock c k b)⟩

/-- Inverting a bit of a block gives another block: the two differ in that bit. -/
theorem xor_bit_ne (b : Block) {n : Nat} (hn : n < 64) : b ^^^ 1#64 <<< n ≠ b := by
  intro h
  have hbit := congrArg (·.getLsbD n) h
  simp [hn] at hbit

/-- Settles O46: `Encode` under one key is injective. -/
theorem oneFlippedBitChangesResult : Obligations.OneFlippedBitChangesResult := by
  unfold Obligations.OneFlippedBitChangesResult
  exact fun c b k n hn => (decodeBlock_leftInverse_encodeBlock c k).injective.ne (xor_bit_ne b hn)

/-! ## The commands -/

/-- A transaction that is the cipher command of `f` refuses without a key and then by the operand's length, and
otherwise completes on the block that the eight bytes join to (R120, R121). -/
theorem exec_of_cipherCommand {i : Instr} {f : Block → Schedule → Block} {s : State}
    (hexec : exec i s = .next (cipherCommand f s)) :
    (s.kv = false → exec i s = .next (raiseError .noKeyError .cipher s)) ∧
    (s.kv = true → s.ilen ≠ 8#4 → exec i s = .next (raiseError .lengthError .cipher s)) ∧
    (s.kv = true → s.ilen = 8#4 → ∀ b : Block,
      b = s.ibuf[0] ++ s.ibuf[1] ++ s.ibuf[2] ++ s.ibuf[3] ++ s.ibuf[4] ++ s.ibuf[5] ++ s.ibuf[6] ++ s.ibuf[7] →
      exec i s = .next (completeCommand { s with dout := f b s.sk, ov := true })) := by
  rw [hexec]
  obtain ⟨hk, h⟩ | ⟨hk, hl, h⟩ | ⟨hk, hl, c, hc, h⟩ := cipherCommand_cases f s <;> rw [h]
  · exact ⟨fun _ => rfl, by simp [hk], by simp [hk]⟩
  · exact ⟨by simp [hk], fun _ _ => rfl, by simp [hl]⟩
  · refine ⟨by simp [hk], by simp [hl], fun _ _ b hb => ?_⟩
    obtain rfl : c = b := by simpa [operand_of_ilen hl, ← hb] using hc.symm
    rfl

/-- Settles O3: `ENC` is the cipher command of `EncodeSK`. -/
theorem encEncryptsOrRefuses : Obligations.EncEncryptsOrRefuses := by
  unfold Obligations.EncEncryptsOrRefuses
  exact ⟨rfl, fun s => exec_of_cipherCommand (i := .enc) (f := encodeSK Config.tables) (s := s) rfl⟩

/-- Settles O4: `DEC` is the cipher command of `DecodeSK`. -/
theorem decDecryptsOrRefuses : Obligations.DecDecryptsOrRefuses := by
  unfold Obligations.DecDecryptsOrRefuses
  exact ⟨rfl, fun s => exec_of_cipherCommand (i := .dec) (f := decodeSK Config.tables) (s := s) rfl⟩

/-- Settles O11: a data read answers what it reads, and the byte of `RD OBYTEi` is byte `i` of `DOUT`. -/
theorem dataReadsAnswerRegisters : Obligations.DataReadsAnswerRegisters := by
  unfold Obligations.DataReadsAnswerRegisters
  exact fun s => ⟨rfl, rfl, fun i => rfl, fun i => ⟨_, rfl, blockByte_getLsbD_fin s.dout i.toFin⟩⟩

/-- In an engine that meets R35 a cipher command on a whole operand leaves the function of the block and of the key's
own schedule. -/
theorem EngineInv.cipherCommand_result {s : State} (inv : EngineInv s) {b : Block} (hk : s.kv = true)
    (hl : s.ilen = 8#4) (hb : s.ibuf = blockToBytes b) (f : Block → Schedule → Block) :
    (cipherCommand f s).dout = f b (schedule s.key) ∧ (cipherCommand f s).ov = true := by
  rw [cipherCommand_of_bytes hk hl hb, ← inv.scheduleOfKey hk]
  exact ⟨rfl, rfl⟩

/-- Settles O27: a reachable state meets R35, so its schedule is that of its key. -/
theorem reachableCipherResultIsOfKey : Obligations.ReachableCipherResultIsOfKey := by
  unfold Obligations.ReachableCipherResultIsOfKey
  intro s b hs hk hl hb
  have hresult := hs.engineInv.cipherCommand_result hk hl hb
  exact ⟨⟨_, rfl, hresult (encodeSK Config.tables)⟩, _, rfl, hresult (decodeSK Config.tables)⟩

/-! ## Loading a key and running a cipher command -/

theorem runProgram_singleton (i : Instr) (s : State) : runProgram [i] s = exec i s := by
  rw [runProgram]
  cases exec i s <;> rfl

/-- A program that completes is followed by the program after it (R149). -/
theorem runProgram_append_of_next {is js : List Instr} {s t u : State} (h : runProgram is s = .next t)
    (h' : runProgram js t = .next u) : runProgram (is ++ js) s = .next u := by
  rw [runProgram_append, h, ← h']

/-- The state `s` after `n` more answers `OK`. -/
def answeredOk (n : Nat) (s : State) : State := { s with answers := s.answers ++ List.replicate n .ok }

theorem answeredOk_answeredOk (m n : Nat) (s : State) : answeredOk n (answeredOk m s) = answeredOk (m + n) s := by
  simp only [answeredOk, List.append_assoc, List.replicate_append_replicate]

/-- The transactions `offer v` bring any operand `v` into an empty buffer, answer `OK` `n` times and do nothing else. -/
def OffersOperand (offer : Block → List Instr) (n : Nat) : Prop :=
  ∀ (v : Block) (s : State), s.ilen = 0#4 → s.ibuf = Vector.replicate 8 0#8 →
    runProgram (offer v) s = .next (answeredOk n (loadOperand v s))

theorem offersOperand_wrdin : OffersOperand (fun v => [.wrdin v]) 1 :=
  fun _ _ _ _ => rfl

theorem offersOperand_pushb : OffersOperand (fun v => pushb (blockToBytes v).toList) 8 :=
  runProgram_push_block

section LoadThenCipher

variable {offer : Block → List Instr} {n : Nat} (hoffer : OffersOperand offer n)
include hoffer

/-- From any state `CLR`, the operand `k` and `KEYGEN` leave the reset engine with the key `k` loaded (R73, R122). -/
theorem runProgram_clear_load_key (s : State) (k : Block) :
    runProgram ([.clr] ++ offer k ++ [.keygen]) s =
      .next (answeredOk (1 + n + 1) (loadKey k (resetRegisters s))) := by
  have hclear : runProgram [.clr] s = .next (clearCommand s) := runProgram_singleton .clr s
  have hload := runProgram_append_of_next hclear (hoffer k (clearCommand s) rfl rfl)
  rw [← answeredOk_answeredOk, ← answeredOk_answeredOk]
  exact runProgram_append_of_next hload
    ((runProgram_singleton _ _).trans (congrArg _ (keygenCommand_of_bytes rfl rfl rfl)))

/-- With a key and an empty buffer the operand `b` and a cipher command complete with the command's function (R120,
R121). -/
theorem runProgram_offer_cipher {cmd : Instr} {f : Block → Schedule → Block}
    (hcmd : ∀ s, exec cmd s = .next (cipherCommand f s)) {s : State} (hk : s.kv = true) (hl : s.ilen = 0#4)
    (hb : s.ibuf = Vector.replicate 8 0#8) (b : Block) :
    runProgram (offer b ++ [cmd]) s =
      .next (answeredOk (n + 1) { consume s with dout := f b s.sk, ov := true, err := 0#3 }) := by
  rw [← answeredOk_answeredOk]
  exact runProgram_append_of_next (hoffer b s hl hb) ((runProgram_singleton _ _).trans ((hcmd _).trans
    (congrArg _ (cipherCommand_of_bytes hk rfl rfl))))

/-- The program of R119, whichever way its two operands are offered. -/
theorem runProgram_load_then_cipher {cmd : Instr} {f : Block → Schedule → Block}
    (hcmd : ∀ s, exec cmd s = .next (cipherCommand f s)) (s : State) (k b : Block) :
    runProgram ([.clr] ++ offer k ++ [.keygen] ++ offer b ++ [cmd]) s =
      .next (answeredOk (1 + n + 1 + (n + 1))
        { loadKey k (resetRegisters s) with dout := f b (schedule k), ov := true }) := by
  rw [List.append_assoc, ← answeredOk_answeredOk]
  exact runProgram_append_of_next (runProgram_clear_load_key hoffer s k)
    (runProgram_offer_cipher hoffer hcmd rfl rfl rfl b)

end LoadThenCipher

/-- Settles O28: both programs are that of `runProgram_load_then_cipher`, with one `WRDIN` or eight `PUSH` to offer an
operand. -/
theorem loadKeyThenCipherGivesFunction : Obligations.LoadKeyThenCipherGivesFunction := by
  unfold Obligations.LoadKeyThenCipherGivesFunction
  intro s k b cmd f hcmd
  obtain ⟨g, hg, hf⟩ : ∃ g, (∀ s, exec cmd s = .next (cipherCommand g s)) ∧
      g b (schedule k) = f Config.tables b k := by
    obtain ⟨rfl, rfl⟩ | ⟨rfl, rfl⟩ := hcmd
    · exact ⟨encodeSK Config.tables, fun _ => rfl, rfl⟩
    · exact ⟨decodeSK Config.tables, fun _ => rfl, rfl⟩
  exact ⟨⟨_, runProgram_load_then_cipher offersOperand_wrdin hg s k b, rfl, hf, rfl, rfl, rfl, rfl, rfl, rfl⟩,
    _, runProgram_load_then_cipher offersOperand_pushb hg s k b, rfl, hf, rfl, rfl, rfl, rfl, rfl, rfl⟩

end Sys2Proof.Machine
end

section
/-! SUPPORT. The rules of the errors' family (spec/60_exceptions.md R126 to R135): which transaction raises which error,
and that its effect is the whole of `raiseError`'s and no other. -/

namespace Sys2Proof.Machine

/-! ## Which transaction raises which error -/

/-- The errors that a transaction as the opcode map spells it can raise, each with the issuer that R134 and R55 tell
apart (R126). -/
inductive Raises : Instr → EngineError → Issuer → Prop where
  /-- `KEYGEN` without exactly 8 bytes (R127). -/
  | keygenLength : Raises .keygen .lengthError .write
  /-- `KEYGEN` with a key (R129). -/
  | keygenLocked : Raises .keygen .keyLockedError .write
  /-- `ENC` or `DEC` without exactly 8 bytes (R127). -/
  | cipherLength {i : Instr} (hi : i = .enc ∨ i = .dec) : Raises i .lengthError .cipher
  /-- `ENC` or `DEC` without a key (R128). -/
  | cipherNoKey {i : Instr} (hi : i = .enc ∨ i = .dec) : Raises i .noKeyError .cipher
  /-- A write to `CMD` of a byte that is no opcode (R130). -/
  | illegalCommand {c : Byte} (hc : isCommandOpcode c = false) : Raises (.wrcmd c) .illegalCommand .write
  /-- A read outside the register map (R131). -/
  | badRead {n : Regno} (hn : isBadRead n = true) : Raises (.rdN n) .badAccess .read
  /-- A write outside the register map (R131). -/
  | badWrite {n : Regno} (b : Byte) (hn : isBadWrite n = true) : Raises (.wrN n b) .badAccess .write

/-- How a transaction `i` from `s` ends, by the state it leaves: without an error answered, or by raising one of its
errors. `Effect` does not tell which error a transaction can raise. -/
inductive Ending (i : Instr) (s : State) : State → Prop where
  /-- A reset, which answers nothing (R54). -/
  | silent {t : State} (h : t.answers = s.answers) : Ending i s t
  /-- A write answered `OK`. -/
  | ok {t : State} (h : t.answers = s.answers ++ [.ok]) : Ending i s t
  /-- A read answered with its value. -/
  | value {t : State} {v : Value} (h : t.answers = s.answers ++ [.value v]) : Ending i s t
  /-- An error (R134). -/
  | raised {e : EngineError} {w : Issuer} (h : Raises i e w) : Ending i s (raiseError e w s)

theorem keygenCommand_ending (s : State) : Ending .keygen s (keygenCommand s) := by
  obtain ⟨-, h⟩ | ⟨-, -, h⟩ | ⟨-, -, k, -, h⟩ := keygenCommand_cases s <;> rw [h]
  · exact .raised .keygenLocked
  · exact .raised .keygenLength
  · exact .ok rfl

theorem cipherCommand_ending {i : Instr} (hi : i = .enc ∨ i = .dec) (f : Block → Schedule → Block) (s : State) :
    Ending i s (cipherCommand f s) := by
  obtain ⟨-, h⟩ | ⟨-, -, h⟩ | ⟨-, -, b, -, h⟩ := cipherCommand_cases f s <;> rw [h]
  · exact .raised (.cipherNoKey hi)
  · exact .raised (.cipherLength hi)
  · exact .ok rfl

/-- Every transaction that the opcode map spells has one of the endings when it completes. -/
theorem exec_ending {i : Instr} {s t : State} (hw : i.wellFormed = true) (h : exec i s = .next t) : Ending i s t := by
  obtain ⟨-, rfl⟩ | ⟨rfl, hi⟩ | ⟨rfl, hi⟩ | ⟨rfl, hi⟩ | ⟨rfl, -⟩ | ⟨rfl, -⟩ | ⟨c, hc, rfl, hi⟩ | ⟨b, rfl, -⟩ |
    ⟨v, -, rfl⟩ | ⟨v, rfl, -⟩ | ⟨n, rfl, hn, rfl⟩ | ⟨n, b, rfl, hn, rfl⟩ := exec_next_cases h
  · exact .silent rfl
  · obtain rfl : i = .keygen := eq_row_of_wellFormed (by decide) hi hw
    exact keygenCommand_ending s
  · exact cipherCommand_ending (.inl (eq_row_of_wellFormed (by decide) hi hw)) _ s
  · exact cipherCommand_ending (.inr (eq_row_of_wellFormed (by decide) hi hw)) _ s
  · exact .ok rfl
  · exact .ok rfl
  · obtain rfl | rfl := hi
    · exact .raised (.illegalCommand hc)
    · exact absurd hw (by simp [Instr.wellFormed, isBadWrite])
  · exact .ok rfl
  · exact .ok rfl
  · exact .value rfl
  · exact .raised (.badRead hn)
  · exact .raised (.badWrite b hn)

/-- A transaction that answers an error raised just that one. -/
theorem Ending.raises_of_error {i : Instr} {s t : State} {e : EngineError} {a : Answer} (h : Ending i s t)
    (ht : t.answers = s.answers ++ [a]) (ha : a = .error e ∨ a = .readError e) :
    ∃ w, Raises i e w ∧ t = raiseError e w s := by
  cases h with
  | silent h => simp [h] at ht
  | ok h =>
    obtain rfl : .ok = a := by simpa [h] using ht
    simp at ha
  | value h =>
    obtain rfl : .value _ = a := by simpa [h] using ht
    simp at ha
  | @raised e' w h =>
    obtain rfl : e' = e := by
      rw [raiseError_answers, List.append_cancel_left_eq, List.singleton_inj] at ht
      subst ht
      split at ha <;> simpa using ha
    exact ⟨w, h, rfl⟩

/-- Settles O17: the effect is `raiseError`'s, and which error is raised where says what it consumes and whether it
clears `OV`. -/
theorem errorEffectIsWholeAndOnly : Obligations.ErrorEffectIsWholeAndOnly := by
  unfold Obligations.ErrorEffectIsWholeAndOnly
  intro i s t e a hw h ht ha
  obtain ⟨w, hraises, rfl⟩ := (exec_ending hw h).raises_of_error ht ha
  refine ⟨rfl, rfl, rfl, rfl, rfl, rfl, rfl, ?_, ?_⟩
  · cases hraises with
    | keygenLength | keygenLocked => simp [EngineError.consumes]
    | cipherLength hi | cipherNoKey hi => simp [EngineError.consumes, hi]
    | illegalCommand | badRead | badWrite => simp [EngineError.consumes]
  · cases hraises with
    | cipherLength hi | cipherNoKey hi => simp [hi]
    | keygenLength | keygenLocked | illegalCommand | badRead | badWrite => simp

/-! ## The errors that consume nothing -/

/-- The five opcodes are 1 to 5 (R60). -/
theorem isCommandOpcode_eq_false_iff_toNat (c : Byte) : isCommandOpcode c = false ↔ c.toNat = 0 ∨ 6 ≤ c.toNat := by
  revert c; decide

/-- `WRCMD c` for a byte that is no opcode (R130). -/
theorem exec_wrcmd_of_not_opcode {c : Byte} (h : isCommandOpcode c = false) (s : State) :
    exec (.wrcmd c) s = .next (raiseError .illegalCommand .write s) := by
  have hrun : runCommand Config.tables c s = raiseError .illegalCommand .write s := by
    obtain ⟨rfl, -⟩ | ⟨rfl, -⟩ | ⟨rfl, -⟩ | ⟨rfl, -⟩ | ⟨rfl, -⟩ | ⟨-, hr⟩ := runCommand_cases Config.tables c s
    on_goal 6 => exact hr
    all_goals exact absurd h (by decide)
  exact congrArg _ hrun

/-- Settles O6: the byte is no opcode, and raising `IllegalCommand` writes `ERR` and `EFLAG` only. -/
theorem illegalCommandChangesErrorOnly : Obligations.IllegalCommandChangesErrorOnly := by
  unfold Obligations.IllegalCommandChangesErrorOnly
  intro s c hc
  exact ⟨congrArg (· :: []) (append_byte_eq_add 0x80#8 c),
    exec_wrcmd_of_not_opcode ((isCommandOpcode_eq_false_iff_toNat c).mpr hc) s⟩

/-- R131's list of bad reads, by number. -/
theorem isBadRead_iff_toNat (n : Regno) :
    isBadRead n = true ↔ n.toNat ∈ [0x00, 0x02, 0x03, 0x06, 0x07] ∨ 0x20 ≤ n.toNat := by
  revert n; decide

/-- Settles O13: the numbers are those of R131, and raising `BadAccess` writes `ERR` and `EFLAG` only. -/
theorem badAccessChangesErrorOnly : Obligations.BadAccessChangesErrorOnly := by
  unfold Obligations.BadAccessChangesErrorOnly
  refine ⟨fun s n hn => ?_, rfl, rfl, fun s n b hn => ?_⟩
  · exact congrArg _ (readNumber_of_isBadRead ((isBadRead_iff_toNat n).mpr hn) s)
  · exact exec_wrN_of_isBadWrite ((isBadWrite_iff_toNat n).mpr hn) b s

/-! ## Which of several errors is reported -/

/-- `KEYGEN` with a key, whatever the operand's length (R129, R133). -/
theorem exec_keygen_of_key {s : State} (hk : s.kv = true) :
    exec .keygen s = .next (raiseError .keyLockedError .write s) := by
  have hrun : keygenCommand s = raiseError .keyLockedError .write s := by
    obtain ⟨-, h⟩ | ⟨hno, -⟩ | ⟨hno, -⟩ := keygenCommand_cases s
    · exact h
    · simp [hk] at hno
    · simp [hk] at hno
  exact congrArg _ hrun

/-- Settles O16: the state error is what the command raises at any length. -/
theorem stateErrorBeforeLengthError : Obligations.StateErrorBeforeLengthError := by
  unfold Obligations.StateErrorBeforeLengthError
  intro s _
  refine ⟨fun hk i hi => ?_, fun hk => ?_⟩
  · obtain ⟨f, hf⟩ := exec_cipher hi
    obtain ⟨hnoKey, -, -⟩ := exec_of_cipherCommand (hf s)
    exact ⟨_, hnoKey hk, rfl, rfl⟩
  · exact ⟨_, exec_keygen_of_key hk, rfl, rfl⟩

end Sys2Proof.Machine
end

section
/-! SUPPORT. The rules of the reset and hazards family (spec/70_reset_and_hazards.md R143 to R157): every transaction is
answered, a run of the trace is a run of its transactions, and what an edge of the signal-level port can do. -/

namespace Sys2Proof.Machine

/-! ## Every transaction is answered -/

/-- No transaction takes a word off the host's trace. -/
theorem exec_trace {i : Instr} {s t : State} (h : exec i s = .next t) : t.trace = s.trace := by
  cases exec_effect h <;> rfl

/-- A transaction as the opcode map spells it, other than a reset, completes with one answer (R150). -/
theorem exec_answers {i : Instr} (hw : i.wellFormed = true) (hm : i.malformedName = none) (hi : i ≠ .reset)
    (s : State) : ∃ t a, exec i s = .next t ∧ t.answers = s.answers ++ [a] := by
  obtain ⟨x, -, hrow⟩ := rowOf_transactionOf hw hm
  have hx : x ≠ .reset := by
    rintro rfl
    exact hi (Except.ok.inj hrow).symm
  exact exec_rowOf_answers hx hrow s

/-- The one answer of a transaction whose next state is known. -/
theorem answer_of_exec_eq {i : Instr} {s t u : State} {a b : Answer} (ht : exec i s = .next t)
    (ha : t.answers = s.answers ++ [a]) (hu : exec i s = .next u) (hb : u.answers = s.answers ++ [b]) : a = b := by
  obtain rfl : t = u := Host.Outcome.next.inj (ht.symm.trans hu)
  simpa using ha.symm.trans hb

/-- Settles O18: a reset answers nothing, every other row completes with one answer, and that of an operand write or a
legal read is the one its meaning gives. -/
theorem everyTransactionIsAnswered : Obligations.EveryTransactionIsAnswered := by
  unfold Obligations.EveryTransactionIsAnswered
  intro i s hw hm
  by_cases hi : i = .reset
  · subst hi
    exact ⟨resetRegisters s, rfl, rfl, fun _ => rfl, fun h => absurd rfl h⟩
  · obtain ⟨t, a, ht, ha⟩ := exec_answers hw hm hi s
    refine ⟨t, ht, exec_trace ht, fun h => absurd h hi, fun _ => ⟨a, ha, fun hwrite => ?_, fun hread => ?_⟩⟩
    · obtain ⟨b, rfl⟩ | ⟨v, rfl⟩ := hwrite <;> exact answer_of_exec_eq ht ha rfl rfl
    · obtain rfl | rfl | rfl | ⟨j, rfl⟩ | ⟨j, rfl⟩ := hread <;> exact ⟨_, answer_of_exec_eq ht ha rfl rfl⟩

/-! ## A run of the trace -/

theorem run_succ_of_next {M : Host.Core} {n : Nat} {s t : M.State} (h : M.step s = .next t) :
    M.run (n + 1) s = M.run n t := by
  simp only [Host.Core.run, h]

theorem run_succ_of_refused {M : Host.Core} {n : Nat} {s : M.State} {r : M.Refusal} (h : M.step s = .refused r) :
    M.run (n + 1) s = .refused r := by
  simp only [Host.Core.run, h]

theorem runProgram_cons_of_next {i : Instr} {is : List Instr} {s t : State} (h : exec i s = .next t) :
    runProgram (i :: is) s = runProgram is t := by
  simp only [runProgram, h]

theorem runProgram_cons_of_refused {i : Instr} {is : List Instr} {s : State} {r : Refusal}
    (h : exec i s = .refused r) : runProgram (i :: is) s = .refused r := by
  simp only [runProgram, h]

/-- Settles O30, by induction on the program: a step is its first transaction, which does not see the trace. -/
theorem stepsOfTraceRunProgram : Obligations.StepsOfTraceRunProgram := by
  unfold Obligations.StepsOfTraceRunProgram
  intro is s rest hw hs
  induction is generalizing s with
  | nil =>
    obtain rfl : s.trace = rest := hs
    rfl
  | cons i is ih =>
    obtain ⟨hi, his⟩ := List.forall_mem_cons.mp hw
    have hdecode : decode s.trace = .ok (i, encodeTrace is ++ rest) := by
      rw [hs, encodeTrace, List.flatMap_cons, List.append_assoc]
      exact decodeOfEncodeIsTransaction i _ hi
    have hstep := step_of_decode hdecode
    have hexec := exec_withTrace i { s with trace := encodeTrace is ++ rest } rest
    cases hx : exec i { s with trace := encodeTrace is ++ rest } with
    | next t =>
      rw [hx] at hstep hexec
      have hrun := run_succ_of_next (M := Sys2Proof.core) (n := is.length) hstep
      have hrest := ih t his (exec_trace hx)
      exact hrun.trans (hrest.trans (runProgram_cons_of_next hexec).symm)
    | fault r => nomatch r
    | refused r =>
      rw [hx] at hstep hexec
      exact (run_succ_of_refused (M := Sys2Proof.core) hstep).trans (runProgram_cons_of_refused hexec).symm

/-! ## What an edge of the port can do -/

theorem clockEdge_of_rst {p : Pins} (hrst : p.rst = true) (q : PortState) :
    clockEdge p q = .next ({ q with engine := resetRegisters q.engine, waiting := none }, noAnswer) := by
  simp [clockEdge, hrst]

theorem clockEdge_of_not_req {p : Pins} (hrst : p.rst = false) (hreq : p.req = false) (q : PortState) :
    clockEdge p q = .next ({ q with waiting := none }, noAnswer) := by
  simp [clockEdge, hrst, hreq]

/-- An edge at the end of a wait that gives a next state is the answer of the transaction on the wires. -/
theorem transact_of_clockEdge_waited {p : Pins} {q r : PortState} {o : PortOut} (hrst : p.rst = false)
    (hreq : p.req = true) (hq : q.waiting = some 0) (h : clockEdge p q = .next (r, o)) :
    ∃ t, transact (pinTransaction p) q.engine = .next t ∧ r = { q with engine := t, waiting := none } ∧
      o = answered t.answers.getLast? := by
  cases ht : transact (pinTransaction p) q.engine with
  | next t =>
    rw [clockEdge_of_waited hrst hreq hq ht] at h
    cases h
    exact ⟨t, rfl, rfl, rfl⟩
  | fault e => nomatch e
  | refused e => simp [clockEdge, hrst, hreq, hq, ht] at h

/-- What one edge did at the port `q`, by the port and the outputs that it leaves (R65, R146, assumption log 7). -/
inductive Edge (p : Pins) (q : PortState) : PortState → PortOut → Prop where
  /-- A reset. -/
  | reset (hrst : p.rst = true) : Edge p q { q with engine := resetRegisters q.engine, waiting := none } noAnswer
  /-- No request on the wires. -/
  | released (hrst : p.rst = false) (hreq : p.req = false) : Edge p q { q with waiting := none } noAnswer
  /-- A request begins its wait. -/
  | begun (hrst : p.rst = false) (hreq : p.req = true) (hq : q.waiting = none) :
      Edge p q { q with waiting := some (latency q p - 1), begun := q.begun + 1 } noAnswer
  /-- The outstanding request waits. -/
  | counted (n : Nat) (hrst : p.rst = false) (hreq : p.req = true) (hq : q.waiting = some (n + 1)) :
      Edge p q { q with waiting := some n } noAnswer
  /-- The transaction on the wires takes effect and is answered. -/
  | acked (t : State) (hrst : p.rst = false) (hreq : p.req = true) (hq : q.waiting = some 0)
      (ht : transact (pinTransaction p) q.engine = .next t) :
      Edge p q { q with engine := t, waiting := none } (answered t.answers.getLast?)

/-- Every edge that gives a next state did one of these. -/
theorem clockEdge_edge {p : Pins} {q r : PortState} {o : PortOut} (h : clockEdge p q = .next (r, o)) :
    Edge p q r o := by
  cases hrst : p.rst with
  | true =>
    rw [clockEdge_of_rst hrst] at h
    cases h
    exact .reset hrst
  | false =>
    cases hreq : p.req with
    | false =>
      rw [clockEdge_of_not_req hrst hreq] at h
      cases h
      exact .released hrst hreq
    | true =>
      match hq : q.waiting with
      | none =>
        rw [clockEdge_of_idle hrst hreq hq] at h
        cases h
        exact .begun hrst hreq hq
      | some (n + 1) =>
        rw [clockEdge_of_waiting hrst hreq hq] at h
        cases h
        exact .counted n hrst hreq hq
      | some 0 =>
        obtain ⟨t, ht, rfl, rfl⟩ := transact_of_clockEdge_waited hrst hreq hq h
        exact .acked t hrst hreq hq ht

@[simp] theorem noAnswer_ack : noAnswer.ack = false := rfl

@[simp] theorem answered_ack (a : Option Answer) : (answered a).ack = true := by
  cases a <;> rfl

/-- Settles O50: of what an edge can do only a reset and an answer change the engine, and only an answer gives `ack`. -/
theorem resetCancelsOutstandingTransaction : Obligations.ResetCancelsOutstandingTransaction := by
  unfold Obligations.ResetCancelsOutstandingTransaction
  intro p q r o h
  cases clockEdge_edge h with
  | reset hrst => simp [hrst, sameRegisters_resetRegisters]
  | released hrst | begun hrst | counted _ hrst => simp [hrst]
  | acked t hrst _ _ ht => simp [hrst, ht]

/-! ## What the host sees of a transaction besides data -/

/-- The code on `resp` in the cycle of the last answer (R65). -/
def lastResp (s : State) : BitVec 3 := (answered s.answers.getLast?).resp

@[simp] theorem lastResp_answer (a : Answer) (s : State) : lastResp (answer a s) = answerResp a := by
  simp [lastResp, answered]

@[simp] theorem lastResp_completeCommand (s : State) : lastResp (completeCommand s) = 0#3 :=
  lastResp_answer .ok _

@[simp] theorem lastResp_raiseError (e : EngineError) (w : Issuer) (s : State) :
    lastResp (raiseError e w s) = e.code := by
  by_cases hw : w = .read <;> simp [lastResp, answered, answerResp, hw]

/-- After their last transactions the engines `t` and `t'` show the host the same `STATUS` and the same `resp`. -/
structure SameReply (t t' : State) : Prop where
  status : statusWord t' = statusWord t
  resp : lastResp t' = lastResp t

/-- All engines show the same `STATUS` after a reset (R36). -/
theorem statusWord_resetRegisters_congr (s s' : State) :
    statusWord (resetRegisters s') = statusWord (resetRegisters s) :=
  (sameRegisters_resetRegisters s').statusWord_eq.trans (sameRegisters_resetRegisters s).statusWord_eq.symm

theorem keygenCommand_of_key {s : State} (hk : s.kv = true) :
    keygenCommand s = raiseError .keyLockedError .write s :=
  Host.Outcome.next.inj (exec_keygen_of_key hk)

theorem keygenCommand_of_length {s : State} (hk : s.kv = false) (hl : s.ilen ≠ 8#4) :
    keygenCommand s = raiseError .lengthError .write s := by
  simp [keygenCommand, operand, hk, hl]

theorem keygenCommand_of_operand {s : State} (hk : s.kv = false) (hl : s.ilen = 8#4) :
    ∃ k, keygenCommand s = completeCommand (loadKey k s) :=
  ⟨_, by simp only [keygenCommand, operand_of_ilen hl, hk]; rfl⟩

theorem cipherCommand_of_noKey (f : Block → Schedule → Block) {s : State} (hk : s.kv = false) :
    cipherCommand f s = raiseError .noKeyError .cipher s := by
  simp [cipherCommand, hk]

theorem cipherCommand_of_length (f : Block → Schedule → Block) {s : State} (hk : s.kv = true) (hl : s.ilen ≠ 8#4) :
    cipherCommand f s = raiseError .lengthError .cipher s := by
  simp [cipherCommand, operand, hk, hl]

theorem cipherCommand_of_operand (f : Block → Schedule → Block) {s : State} (hk : s.kv = true) (hl : s.ilen = 8#4) :
    ∃ d, cipherCommand f s = completeCommand { s with dout := d, ov := true } :=
  ⟨_, by simp only [cipherCommand, operand_of_ilen hl, hk]; rfl⟩

/-- The read of a number that R131 does not list. -/
theorem readNumber_of_not_isBadRead {n : Regno} (hn : isBadRead n = false) (s : State) :
    ∃ v, readNumber n s = answer (.value v) s := by
  obtain ⟨-, v, -, -, hs⟩ | ⟨hbad, -⟩ := readNumber_cases n s
  · exact ⟨v, hs⟩
  · exact absurd ((isBadRead_iff n s).mpr hbad) (by simp [hn])

/-- The state that a write the port accepts leaves, by register number and data (R39, R131). -/
def writeNumber (n : Regno) (v : Block) (s : State) : State :=
  if n = 0x00#6 then runCommand Config.tables (v.extractLsb' 0 8) s
  else if n = 0x02#6 then answer .ok (pushByte (v.extractLsb' 0 8) s)
  else if n = 0x03#6 then answer .ok (loadOperand v s)
  else raiseError .badAccess .write s

/-- A write that completes leaves what its register number and data say. -/
theorem writeNumber_of_transact {n : Regno} {v : Block} {s t : State} (h : transact (.regWrite n v) s = .next t) :
    t = writeNumber n v s := by
  obtain ⟨rfl, -, hw⟩ | ⟨rfl, -, hw⟩ | ⟨-, -, hw⟩ | ⟨rfl, hw⟩ | ⟨hbad, hw⟩ := writeRow_cases n v
  · rw [transact_regWrite_of_ok hw, exec_commandRow] at h
    cases h
    rfl
  · rw [transact_regWrite_of_ok hw] at h
    cases h
    rfl
  · rw [transact_regWrite_of_error hw] at h
    cases h
  · rw [transact_regWrite_of_ok hw] at h
    cases h
    rfl
  · obtain ⟨h0, h2, h3⟩ := ne_writable_of_isBadWrite hbad
    rw [transact_regWrite_of_ok hw, exec_wrN_of_isBadWrite hbad] at h
    cases h
    simp [writeNumber, h0, h2, h3]

section SameStatus

variable {s s' : State} (h : statusWord s' = statusWord s)
include h

theorem sameReply_answer {a a' : Answer} (ha : answerResp a' = answerResp a) :
    SameReply (answer a s) (answer a' s') where
  status := h
  resp := by simp [ha]

theorem sameReply_raiseError (e : EngineError) (w : Issuer) : SameReply (raiseError e w s) (raiseError e w s') := by
  obtain ⟨hilen, -, -, hov, hkv⟩ := (statusWord_eq_iff _ _).mp h
  exact ⟨by simp [statusWord_eq_iff, hilen, hov, hkv], by simp⟩

theorem sameReply_completeCommand : SameReply (completeCommand s) (completeCommand s') := by
  obtain ⟨-, -, heflag, hov, hkv⟩ := (statusWord_eq_iff _ _).mp h
  exact ⟨by simp [statusWord_eq_iff, heflag, hov, hkv], by simp⟩

theorem statusWord_loadKey_congr (k k' : Block) : statusWord (loadKey k' s') = statusWord (loadKey k s) := by
  obtain ⟨hilen, herr, heflag, hov, -⟩ := (statusWord_eq_iff _ _).mp h
  simp [statusWord_eq_iff, hilen, herr, heflag, hov]

theorem statusWord_withResult_congr (d d' : Block) :
    statusWord { s' with dout := d', ov := true } = statusWord { s with dout := d, ov := true } := by
  obtain ⟨hilen, herr, heflag, -, hkv⟩ := (statusWord_eq_iff _ _).mp h
  simp [statusWord_eq_iff, hilen, herr, heflag, hkv]

theorem statusWord_pushByte_congr (b b' : Byte) : statusWord (pushByte b' s') = statusWord (pushByte b s) := by
  obtain ⟨hilen, herr, heflag, hov, hkv⟩ := (statusWord_eq_iff _ _).mp h
  simp [statusWord_eq_iff, hilen, herr, heflag, hov, hkv]

theorem statusWord_loadOperand_congr (v v' : Block) :
    statusWord (loadOperand v' s') = statusWord (loadOperand v s) := by
  obtain ⟨-, herr, heflag, hov, hkv⟩ := (statusWord_eq_iff _ _).mp h
  simp [statusWord_eq_iff, herr, heflag, hov, hkv]

/-- `KEYGEN` branches on `KV` and the operand's length alone (R73). -/
theorem sameReply_keygenCommand : SameReply (keygenCommand s) (keygenCommand s') := by
  obtain ⟨hilen, -, -, -, hkv⟩ := (statusWord_eq_iff _ _).mp h
  obtain ⟨hk, hs⟩ | ⟨hk, hl, hs⟩ | ⟨hk, hl, k, -, hs⟩ := keygenCommand_cases s
  · rw [hs, keygenCommand_of_key (hkv.trans hk)]
    exact sameReply_raiseError h _ _
  · rw [hs, keygenCommand_of_length (hkv.trans hk) (hilen.trans_ne hl)]
    exact sameReply_raiseError h _ _
  · obtain ⟨k', hs'⟩ := keygenCommand_of_operand (hkv.trans hk) (hilen.trans hl)
    rw [hs, hs']
    exact sameReply_completeCommand (statusWord_loadKey_congr h k k')

/-- `ENC` and `DEC` branch on `KV` and the operand's length alone (R120, R121). -/
theorem sameReply_cipherCommand (f : Block → Schedule → Block) :
    SameReply (cipherCommand f s) (cipherCommand f s') := by
  obtain ⟨hilen, -, -, -, hkv⟩ := (statusWord_eq_iff _ _).mp h
  obtain ⟨hk, hs⟩ | ⟨hk, hl, hs⟩ | ⟨hk, hl, b, -, hs⟩ := cipherCommand_cases f s
  · rw [hs, cipherCommand_of_noKey f (hkv.trans hk)]
    exact sameReply_raiseError h _ _
  · rw [hs, cipherCommand_of_length f (hkv.trans hk) (hilen.trans_ne hl)]
    exact sameReply_raiseError h _ _
  · obtain ⟨d, hs'⟩ := cipherCommand_of_operand f (hkv.trans hk) (hilen.trans hl)
    rw [hs, hs']
    exact sameReply_completeCommand (statusWord_withResult_congr h _ d)

theorem sameReply_runCommand (cfg : Cfg) (c : Byte) : SameReply (runCommand cfg c s) (runCommand cfg c s') := by
  unfold runCommand
  split_ifs
  · exact sameReply_keygenCommand h
  · exact sameReply_cipherCommand h _
  · exact sameReply_cipherCommand h _
  · exact sameReply_completeCommand h
  · exact sameReply_answer (statusWord_resetRegisters_congr s s') rfl
  · exact sameReply_raiseError h _ _

/-- Whether a read is a bad access is the register map's, and every value is answered with `resp` 0 (R131, R65). -/
theorem sameReply_readNumber (n : Regno) : SameReply (readNumber n s) (readNumber n s') := by
  cases hbad : isBadRead n with
  | true =>
    rw [readNumber_of_isBadRead hbad, readNumber_of_isBadRead hbad]
    exact sameReply_raiseError h _ _
  | false =>
    obtain ⟨v, hv⟩ := readNumber_of_not_isBadRead hbad s
    obtain ⟨v', hv'⟩ := readNumber_of_not_isBadRead hbad s'
    rw [hv, hv']
    exact sameReply_answer h rfl

/-- What a write does to `STATUS` and answers does not depend on its data, an opcode's low byte apart (R60). -/
theorem sameReply_writeNumber {n : Regno} {v v' : Block} (hv : n = 0x00#6 → v'.extractLsb' 0 8 = v.extractLsb' 0 8) :
    SameReply (writeNumber n v s) (writeNumber n v' s') := by
  unfold writeNumber
  split_ifs with h0 h2 h3
  · rw [hv h0]
    exact sameReply_runCommand h _ _
  · exact sameReply_answer (statusWord_pushByte_congr h _ _) rfl
  · exact sameReply_answer (statusWord_loadOperand_congr h _ _) rfl
  · exact sameReply_raiseError h _ _

end SameStatus

/-- Transactions on wires that differ in data alone, of engines that agree on `STATUS`, agree on it again and on
`resp`. -/
theorem sameReply_of_transact {p p' : Pins} {s s' t t' : State} (hrw : p'.rw = p.rw) (hregno : p'.regno = p.regno)
    (hop : pinOpcode p' = pinOpcode p) (h : statusWord s' = statusWord s)
    (ht : transact (pinTransaction p) s = .next t) (ht' : transact (pinTransaction p') s' = .next t') :
    SameReply t t' := by
  cases hp : p.rw with
  | false =>
    simp only [pinTransaction, hrw, hp, hregno, Bool.false_eq_true, if_false, transact_regRead] at ht ht'
    cases ht
    cases ht'
    exact sameReply_readNumber h _
  | true =>
    simp only [pinTransaction, hrw, hp, hregno, if_true] at ht ht'
    rw [writeNumber_of_transact ht, writeNumber_of_transact ht']
    refine sameReply_writeNumber h fun hn => ?_
    simpa [pinOpcode, hrw, hp, hregno, hn, regOfNumber] using hop

/-- The latency of a request reads nothing but what R150 lets it (assumption log 7). -/
theorem latency_congr {p p' : Pins} {q q' : PortState} (hrw : p'.rw = p.rw) (hregno : p'.regno = p.regno)
    (hop : pinOpcode p' = pinOpcode p) (hbegun : q'.begun = q.begun)
    (h : statusWord q'.engine = statusWord q.engine) : latency q' p' = latency q p := by
  simp only [latency, hrw, hregno, hop, hbegun, h]

/-- Settles O53: the wires and the wait that the ports share say what the edge does to the one and so to the other; an
answer is of transactions that differ in data alone. -/
theorem waitDependsOnNoData : Obligations.WaitDependsOnNoData := by
  unfold Obligations.WaitDependsOnNoData
  intro p p' q q' r r' o o' hrst hreq hrw hregno hop hwaiting hbegun hstatus h h'
  cases clockEdge_edge h with
  | reset hr =>
    rw [clockEdge_of_rst (hrst.trans hr)] at h'
    cases h'
    exact ⟨rfl, hbegun, statusWord_resetRegisters_congr _ _, rfl, rfl⟩
  | released hr hq =>
    rw [clockEdge_of_not_req (hrst.trans hr) (hreq.trans hq)] at h'
    cases h'
    exact ⟨rfl, hbegun, hstatus, rfl, rfl⟩
  | begun hr hq hw =>
    rw [clockEdge_of_idle (hrst.trans hr) (hreq.trans hq) (hwaiting.trans hw)] at h'
    cases h'
    simp [latency_congr hrw hregno hop hbegun hstatus, hbegun, hstatus]
  | counted n hr hq hw =>
    rw [clockEdge_of_waiting (hrst.trans hr) (hreq.trans hq) (hwaiting.trans hw)] at h'
    cases h'
    exact ⟨rfl, hbegun, hstatus, rfl, rfl⟩
  | acked t hr hq hw ht =>
    obtain ⟨t', ht', rfl, rfl⟩ :=
      transact_of_clockEdge_waited (hrst.trans hr) (hreq.trans hq) (hwaiting.trans hw) h'
    obtain ⟨hstatus', hresp⟩ := sameReply_of_transact hrw hregno hop hstatus ht ht'
    exact ⟨rfl, hbegun, hstatus', by simp, hresp⟩

end Sys2Proof.Machine
end
